-- ==== Sys2Proof/Word.lean ====
section
/-!
DEFINITION. The word of QuAC: the size of every register, every memory word, every address and every instruction
(spec/00_scope.md R4, R6).
-/
namespace Sys2Proof

/-- A 16-bit value: "every register value, memory word, address and instruction word is a 16-bit vector" (R6). -/
abbrev Word := BitVec 16

/-- The 8-bit immediate of the I-Mode format (R52, R58). -/
abbrev Imm8 := BitVec 8

end Sys2Proof
end

