-- ==== Sys2Proof/Config.lean ====
section
/-!
DEFINITION. What the hardware fixes once (spec/00_scope.md R4) and the one value the model chooses.
Of the parameters of spec/92_eei_decisions.md the model takes the defaults: PC_WRAP = wrap (D3), FL_UPPER = zero (D4),
LDST_RB = undefined (D5), FL_WRITE = undefined (D1), SMC = coherent (D9). MEM_INIT (D6) is the argument of
Machine.State.start; END_OF_RUN (D7) is the predicate Safety.Ended. No value of this hardware is left free by an
instruction that goes on, so there is no opaque constant here.
-/
namespace Sys2Proof.Config

/-- The number of memory words, at addresses 0x0000 to 0xFFFF (R4 MEMWORDS, R30). -/
def memWords : Nat := 65536

/-- What every register holds at the start: "All registers start initalised to 0x0000" (R27, R160). -/
def registerReset : Word := 0x0000#16

/-- What an address that the memory list does not name reads as.
DESIGN CHOICE (log entry 1), unsafe: the spec leaves MEM_INIT open (R162, D6); the list is one representation of it, in
which only the words that differ from 0x0000 are written down. -/
def unlistedWord : Word := 0x0000#16

end Sys2Proof.Config
end

