-- ==== Sys2Proof/Syntax.lean ====
section
/-!
DEFINITION. The names of the registers, the reasons an instruction word is undefined, and the instructions: one
constructor of Instr for every row of spec/opcode_table.json.
-/
namespace Sys2Proof

/-- The register codes that name a register (spec/10_state.md R11). Code 110 names nothing: "There is no storage behind
the code and no value to read" (R14); the decoder rejects it by name, so no instruction holds it. -/
inductive Reg where
  /-- Code 000: always reads zero, writes have no effect (R12). -/
  | rz
  /-- Code 001: general purpose (R13). -/
  | r1
  /-- Code 010: general purpose (R13). -/
  | r2
  /-- Code 011: general purpose (R13). -/
  | r3
  /-- Code 100: general purpose (R13). -/
  | r4
  /-- Code 101: the flag register, readable by every instruction; a write to it as a destination is undefined (R15 to R18). -/
  | fl
  /-- Code 111: the program counter, the address of the current instruction (R21, R22). -/
  | pc
deriving DecidableEq, Repr

/-- The closed list of reasons of `raise Undefined(reason)` (spec/00_scope.md R9), in the order R64 tests them. -/
inductive UndefinedReason where
  /-- One of the eight undefined opcodes (R62). Raised by the eight reserved rows' meanings. Safe: the machine stops. -/
  | opcode
  /-- Bit 7 or bit 3 of an R-Mode word is one (R61). Raised by the decoder. Safe: the machine stops. -/
  | reservedBit
  /-- Bits 2:0 of a str or ldr word are not 000 (R63). Raised by the decoder. Safe: the machine stops. -/
  | ldstLowBits
  /-- A used register field holds 110 (R14). Raised by the decoder. Safe: the machine stops. -/
  | register110
  /-- An instruction other than str has rd = 101 (R18). Raised by the decoder, and by the meaning of a term that is not
  well formed. Safe: the machine stops. -/
  | writeFl
deriving DecidableEq, Repr

/-- One constructor for every row of spec/opcode_table.json. `z` is bit 11 of the word: execute only when the Z flag is
set (spec/30_encoding.md R54, R56). -/
inductive Instr where
  /-- `movl{z} rd, imm8`: rd := zext_16(imm8) (spec/40_imode.md R80). -/
  | movl (z : Bool) (rd : Reg) (imm8 : Imm8)
  /-- `seth{z} rd, imm8`: rd := (imm8 << 8) | (rd & 0xff) (R81). -/
  | seth (z : Bool) (rd : Reg) (imm8 : Imm8)
  /-- `str{z} rd, [ra]`: [ra] := rd (spec/41_memory_instructions.md R90). -/
  | str (z : Bool) (rd ra : Reg)
  /-- `ldr{z} rd, [ra]`: rd := [ra] (R91). -/
  | ldr (z : Bool) (rd ra : Reg)
  /-- `add{z} rd,ra,rb` (spec/42_alu.md R105). -/
  | add (z : Bool) (rd ra rb : Reg)
  /-- `sub{z} rd,ra,rb` (R106). -/
  | sub (z : Bool) (rd ra rb : Reg)
  /-- `and{z} rd,ra,rb` (R107). -/
  | and (z : Bool) (rd ra rb : Reg)
  /-- `orr{z} rd,ra,rb` (R108). -/
  | orr (z : Bool) (rd ra rb : Reg)
  /-- The table's reserved row 0010 xxxx xxxx xxxx (R62); `low` is its other twelve bits, "no field of it is decoded" (U9). -/
  | undef0010 (low : BitVec 12)
  /-- The table's reserved row 0011 xxxx xxxx xxxx (R62). -/
  | undef0011 (low : BitVec 12)
  /-- The table's reserved row 0110 xxxx xxxx xxxx (R62). -/
  | undef0110 (low : BitVec 12)
  /-- The table's reserved row 0111 xxxx xxxx xxxx (R62). -/
  | undef0111 (low : BitVec 12)
  /-- The table's reserved row 1100 xxxx xxxx xxxx (R62). -/
  | undef1100 (low : BitVec 12)
  /-- The table's reserved row 1101 xxxx xxxx xxxx (R62). -/
  | undef1101 (low : BitVec 12)
  /-- The table's reserved row 1110 xxxx xxxx xxxx (R62). -/
  | undef1110 (low : BitVec 12)
  /-- The table's reserved row 1111 xxxx xxxx xxxx (R62). -/
  | undef1111 (low : BitVec 12)
  /-- `mov{z} rd, ra`, a spelling of `add{z} rd, ra, rz` (spec/43_pseudo.md R120). The decoder never answers it. -/
  | mov (z : Bool) (rd ra : Reg)
  /-- `jpr{z} ra`, a spelling of `add{z} pc, ra, rz` (R121). The decoder never answers it. -/
  | jpr (z : Bool) (ra : Reg)
  /-- `cmp{z} ra, rb`, a spelling of `sub{z} rz, ra, rb` (R122). The decoder never answers it. -/
  | cmp (z : Bool) (ra rb : Reg)
  /-- `nop`, a spelling of `movl rz, 0` (R123). The decoder never answers it. -/
  | nop
  /-- `jpm{z} [ra]`, a spelling of `ldr{z} pc, [ra]` (R124). The decoder never answers it. -/
  | jpm (z : Bool) (ra : Reg)
  /-- `jp{z} imm8`, a spelling of `movl{z} pc, imm8` (R125). The decoder never answers it. -/
  | jp (z : Bool) (imm8 : Imm8)
  /-- `jp{z} <label>`, `target` being the label's address (R126): "Up to the assembler". It has a word of its own only
  where the one-word form of R125 does it. The decoder never answers it. -/
  | jpLabel (z : Bool) (target : Word)
deriving DecidableEq, Repr

end Sys2Proof
end

