-- ==== Sys2Proof/WellFormed.lean ====
section
/-!
DEFINITION. The static checks. On an instruction: wellFormed, and what kind of row it is. On a word, written from
spec/30_encoding.md R64 alone and not used by the decoder: undefinedReason and definedWord, so that claims can compare the
decoder with the rule.
-/
namespace Sys2Proof

/-- A register the instruction may name as a destination: any but fl (R18). -/
def Reg.writable (r : Reg) : Bool := r != .fl

/-- The term has a word of its own among the encodings: a written rd is not fl (R18), and a label's address is one the
one-word jump of R126 reaches. The reserved rows carry no constraint ("none: every word with this opcode is undefined"). -/
def Instr.wellFormed : Instr → Bool
  | .movl _ rd _ | .seth _ rd _ => rd.writable
  | .str _ _ _ => true
  | .ldr _ rd _ => rd.writable
  | .add _ rd _ _ | .sub _ rd _ _ | .and _ rd _ _ | .orr _ rd _ _ => rd.writable
  | .undef0010 _ | .undef0011 _ | .undef0110 _ | .undef0111 _ => true
  | .undef1100 _ | .undef1101 _ | .undef1110 _ | .undef1111 _ => true
  | .mov _ rd _ => rd.writable
  | .jpr _ _ | .cmp _ _ _ | .nop | .jpm _ _ | .jp _ _ => true
  | .jpLabel _ target => decide (target.toNat ≤ 0xFF)

/-- A reserved row of the table: one of the eight undefined opcodes (R62). -/
def Instr.isReserved : Instr → Bool
  | .undef0010 _ | .undef0011 _ | .undef0110 _ | .undef0111 _ => true
  | .undef1100 _ | .undef1101 _ | .undef1110 _ | .undef1111 _ => true
  | .movl _ _ _ | .seth _ _ _ | .str _ _ _ | .ldr _ _ _ => false
  | .add _ _ _ _ | .sub _ _ _ _ | .and _ _ _ _ | .orr _ _ _ _ => false
  | .mov _ _ _ | .jpr _ _ | .cmp _ _ _ | .nop | .jpm _ _ | .jp _ _ | .jpLabel _ _ => false

/-- A pseudo row of the table: another spelling of a hardware instruction (spec/43_pseudo.md). -/
def Instr.isPseudo : Instr → Bool
  | .mov _ _ _ | .jpr _ _ | .cmp _ _ _ | .nop | .jpm _ _ | .jp _ _ | .jpLabel _ _ => true
  | .movl _ _ _ | .seth _ _ _ | .str _ _ _ | .ldr _ _ _ => false
  | .add _ _ _ _ | .sub _ _ _ _ | .and _ _ _ _ | .orr _ _ _ _ => false
  | .undef0010 _ | .undef0011 _ | .undef0110 _ | .undef0111 _ => false
  | .undef1100 _ | .undef1101 _ | .undef1110 _ | .undef1111 _ => false

/-- A defined instruction: well formed and of no undefined opcode. -/
def Instr.defined (i : Instr) : Bool := i.wellFormed && !i.isReserved

/-- R64's reasons on a 16-bit word, in the order R64 gives: opcode, reserved-bit, ldst-low-bits, register-110, write-fl. -/
def undefinedReason (w : Word) : Option UndefinedReason :=
  let op := w.extractLsb' 12 4
  let rd := w.extractLsb' 8 3
  let ra := w.extractLsb' 4 3
  let rb := w.extractLsb' 0 3
  let imode := op = 0x0#4 ∨ op = 0x1#4
  let ldst := op = 0x4#4 ∨ op = 0x5#4
  let alu := op = 0x8#4 ∨ op = 0x9#4 ∨ op = 0xA#4 ∨ op = 0xB#4
  if ¬ (imode ∨ ldst ∨ alu) then some .opcode
  else if ¬ imode ∧ (w.getLsbD 7 = true ∨ w.getLsbD 3 = true) then some .reservedBit
  else if ldst ∧ rb ≠ 0#3 then some .ldstLowBits
  else if rd = 6#3 ∨ (¬ imode ∧ ra = 6#3) ∨ (alu ∧ rb = 6#3) then some .register110
  else if op ≠ 0x4#4 ∧ rd = 5#3 then some .writeFl
  else none

/-- `Defined(w)` as R64 writes it, one line an opcode group. -/
def definedWord (w : Word) : Bool :=
  let op := w.extractLsb' 12 4
  let rd := w.extractLsb' 8 3
  let ra := w.extractLsb' 4 3
  let rb := w.extractLsb' 0 3
  let reserved := w.getLsbD 7 || w.getLsbD 3
  if op = 0b0000#4 ∨ op = 0b0001#4 then decide (rd ≠ 6#3 ∧ rd ≠ 5#3)
  else if op = 0b0100#4 then !reserved && decide (rb = 0#3 ∧ rd ≠ 6#3 ∧ ra ≠ 6#3)
  else if op = 0b0101#4 then !reserved && decide (rb = 0#3 ∧ rd ≠ 6#3 ∧ rd ≠ 5#3 ∧ ra ≠ 6#3)
  else if op = 0b1000#4 ∨ op = 0b1001#4 ∨ op = 0b1010#4 ∨ op = 0b1011#4 then
    !reserved && decide (rd ≠ 6#3 ∧ rd ≠ 5#3 ∧ ra ≠ 6#3 ∧ rb ≠ 6#3)
  else false

end Sys2Proof
end

