-- ==== Sys2Proof/Decode.lean ====
section
/-!
DEFINITION. Decoding (spec/30_encoding.md R51, R52, R60 to R64) and encoding. The decoder is total on 16-bit words: it
answers an instruction or the reason the word is undefined. It is "built from the instruction rows alone" (R60): a word of a
pseudo-instruction decodes to the hardware instruction it is a spelling of.
-/
namespace Sys2Proof

/-- The register table (spec/10_state.md R11); code 110 names nothing (R14). -/
def Reg.ofCode (c : BitVec 3) : Option Reg :=
  if c = 0b000#3 then some .rz
  else if c = 0b001#3 then some .r1
  else if c = 0b010#3 then some .r2
  else if c = 0b011#3 then some .r3
  else if c = 0b100#3 then some .r4
  else if c = 0b101#3 then some .fl
  else if c = 0b110#3 then none
  else some .pc

/-- The 3-bit code of a register (R11). -/
def Reg.code : Reg → BitVec 3
  | .rz => 0b000#3
  | .r1 => 0b001#3
  | .r2 => 0b010#3
  | .r3 => 0b011#3
  | .r4 => 0b100#3
  | .fl => 0b101#3
  | .pc => 0b111#3

/-! The fields of a word (R51 to R54, R57). -/

/-- op, bits 15:12. -/
def opField (w : Word) : BitVec 4 := w.extractLsb' 12 4
/-- z, bit 11. -/
def zField (w : Word) : Bool := w.getLsbD 11
/-- rd, bits 10:8. -/
def rdField (w : Word) : BitVec 3 := w.extractLsb' 8 3
/-- ra, bits 6:4. -/
def raField (w : Word) : BitVec 3 := w.extractLsb' 4 3
/-- rb, bits 2:0. -/
def rbField (w : Word) : BitVec 3 := w.extractLsb' 0 3
/-- imm8, bits 7:0, bit 7 the most significant (R58). -/
def imm8Field (w : Word) : Imm8 := w.extractLsb' 0 8
/-- The twelve bits below op, which an undefined opcode leaves without fields (R59). -/
def lowField (w : Word) : BitVec 12 := w.extractLsb' 0 12

/-- Bit 7 or bit 3 of an R-Mode word is one (R61). -/
def reservedSet (w : Word) : Bool := w.getLsbD 7 || w.getLsbD 3

/-! One decoder a format, each testing R64's reasons in R64's order. -/

/-- The I-Mode words, movl and seth (R52): rd names a register (R14) and is not fl (R18). -/
def decodeImode (mk : Bool → Reg → Imm8 → Instr) (w : Word) : Except UndefinedReason Instr :=
  match Reg.ofCode (rdField w) with
  | some rd => if rd.writable then .ok (mk (zField w) rd (imm8Field w)) else .error .writeFl
  | none => .error .register110

/-- The str word (R90): bits 2:0 are 000 (R63); rd is read, so it may be fl. -/
def decodeStr (w : Word) : Except UndefinedReason Instr :=
  if reservedSet w then .error .reservedBit
  else if rbField w ≠ 0b000#3 then .error .ldstLowBits
  else
    match Reg.ofCode (rdField w), Reg.ofCode (raField w) with
    | some rd, some ra => .ok (.str (zField w) rd ra)
    | some _, none => .error .register110
    | none, _ => .error .register110

/-- The ldr word (R91). -/
def decodeLdr (w : Word) : Except UndefinedReason Instr :=
  if reservedSet w then .error .reservedBit
  else if rbField w ≠ 0b000#3 then .error .ldstLowBits
  else
    match Reg.ofCode (rdField w), Reg.ofCode (raField w) with
    | some rd, some ra => if rd.writable then .ok (.ldr (zField w) rd ra) else .error .writeFl
    | some _, none => .error .register110
    | none, _ => .error .register110

/-- The R-Mode ALU words, add, sub, and, orr (R51). -/
def decodeAlu (mk : Bool → Reg → Reg → Reg → Instr) (w : Word) : Except UndefinedReason Instr :=
  if reservedSet w then .error .reservedBit
  else
    match Reg.ofCode (rdField w), Reg.ofCode (raField w), Reg.ofCode (rbField w) with
    | some rd, some ra, some rb => if rd.writable then .ok (mk (zField w) rd ra rb) else .error .writeFl
    | some _, some _, none => .error .register110
    | some _, none, _ => .error .register110
    | none, _, _ => .error .register110

/-- The opcode map (R60): every value of op, in the table's order. A word of an undefined opcode decodes to its reserved row,
whose meaning is Undefined(opcode) (R62). -/
def decode (w : Word) : Except UndefinedReason Instr :=
  let op := opField w
  if op = 0b0000#4 then decodeImode .movl w
  else if op = 0b0001#4 then decodeImode .seth w
  else if op = 0b0010#4 then .ok (.undef0010 (lowField w))
  else if op = 0b0011#4 then .ok (.undef0011 (lowField w))
  else if op = 0b0100#4 then decodeStr w
  else if op = 0b0101#4 then decodeLdr w
  else if op = 0b0110#4 then .ok (.undef0110 (lowField w))
  else if op = 0b0111#4 then .ok (.undef0111 (lowField w))
  else if op = 0b1000#4 then decodeAlu .add w
  else if op = 0b1001#4 then decodeAlu .sub w
  else if op = 0b1010#4 then decodeAlu .and w
  else if op = 0b1011#4 then decodeAlu .orr w
  else if op = 0b1100#4 then .ok (.undef1100 (lowField w))
  else if op = 0b1101#4 then .ok (.undef1101 (lowField w))
  else if op = 0b1110#4 then .ok (.undef1110 (lowField w))
  else .ok (.undef1111 (lowField w))

/-- What the decoder reads from a table row's word: every instruction is one 16-bit word (R50), bit 0 its least significant
bit; the bits above `nbits` are zero. -/
def decodeTableWord (nbits w : Nat) : Option Instr :=
  match decode (BitVec.ofNat 16 (w % 2 ^ nbits)) with
  | .ok i => some i
  | .error _ => none

/-! Encoding, from the Machine Code column (R60; spec/43_pseudo.md for the pseudo rows). -/

/-- An I-Mode word: op, z, rd, imm8 (R52). -/
def encodeI (op : BitVec 4) (z : Bool) (rd : BitVec 3) (imm8 : Imm8) : Word :=
  op ++ BitVec.ofBool z ++ rd ++ imm8

/-- An R-Mode word: op, z, rd, 0, ra, 0, rb (R51). -/
def encodeR (op : BitVec 4) (z : Bool) (rd ra rb : BitVec 3) : Word :=
  op ++ BitVec.ofBool z ++ rd ++ 0b0#1 ++ ra ++ 0b0#1 ++ rb

/-- A word of an undefined opcode: op and twelve bits (R62). -/
def encodeReserved (op : BitVec 4) (low : BitVec 12) : Word := op ++ low

/-- The word of a well-formed instruction. -/
def encode : Instr → Word
  | .movl z rd imm8 => encodeI 0b0000#4 z rd.code imm8
  | .seth z rd imm8 => encodeI 0b0001#4 z rd.code imm8
  | .str z rd ra => encodeR 0b0100#4 z rd.code ra.code 0b000#3
  | .ldr z rd ra => encodeR 0b0101#4 z rd.code ra.code 0b000#3
  | .add z rd ra rb => encodeR 0b1000#4 z rd.code ra.code rb.code
  | .sub z rd ra rb => encodeR 0b1001#4 z rd.code ra.code rb.code
  | .and z rd ra rb => encodeR 0b1010#4 z rd.code ra.code rb.code
  | .orr z rd ra rb => encodeR 0b1011#4 z rd.code ra.code rb.code
  | .undef0010 low => encodeReserved 0b0010#4 low
  | .undef0011 low => encodeReserved 0b0011#4 low
  | .undef0110 low => encodeReserved 0b0110#4 low
  | .undef0111 low => encodeReserved 0b0111#4 low
  | .undef1100 low => encodeReserved 0b1100#4 low
  | .undef1101 low => encodeReserved 0b1101#4 low
  | .undef1110 low => encodeReserved 0b1110#4 low
  | .undef1111 low => encodeReserved 0b1111#4 low
  | .mov z rd ra => encodeR 0b1000#4 z rd.code ra.code 0b000#3
  | .jpr z ra => encodeR 0b1000#4 z 0b111#3 ra.code 0b000#3
  | .cmp z ra rb => encodeR 0b1001#4 z 0b000#3 ra.code rb.code
  | .nop => 0x0000#16
  | .jpm z ra => encodeR 0b0101#4 z 0b111#3 ra.code 0b000#3
  | .jp z imm8 => encodeI 0b0000#4 z 0b111#3 imm8
  | .jpLabel z target => encodeI 0b0000#4 z 0b111#3 (target.setWidth 8)

/-- The hardware instruction an instruction is, itself for a hardware instruction (the table's `expands_to`,
spec/43_pseudo.md R120 to R126; a label's one-word form is R125's). -/
def Instr.expand : Instr → Instr
  | .mov z rd ra => .add z rd ra .rz
  | .jpr z ra => .add z .pc ra .rz
  | .cmp z ra rb => .sub z .rz ra rb
  | .nop => .movl false .rz 0x00#8
  | .jpm z ra => .ldr z .pc ra
  | .jp z imm8 => .movl z .pc imm8
  | .jpLabel z target => .movl z .pc (target.setWidth 8)
  | .movl z rd imm8 => .movl z rd imm8
  | .seth z rd imm8 => .seth z rd imm8
  | .str z rd ra => .str z rd ra
  | .ldr z rd ra => .ldr z rd ra
  | .add z rd ra rb => .add z rd ra rb
  | .sub z rd ra rb => .sub z rd ra rb
  | .and z rd ra rb => .and z rd ra rb
  | .orr z rd ra rb => .orr z rd ra rb
  | .undef0010 low => .undef0010 low
  | .undef0011 low => .undef0011 low
  | .undef0110 low => .undef0110 low
  | .undef0111 low => .undef0111 low
  | .undef1100 low => .undef1100 low
  | .undef1101 low => .undef1101 low
  | .undef1110 low => .undef1110 low
  | .undef1111 low => .undef1111 low

end Sys2Proof
end

