-- ==== Sys2Proof/Machine/State.lean ====
section
/-!
DEFINITION. The state of the machine, all that spec/10_state.md R10 lists ("exactly this and nothing else"), the ways a step
can stop, and the state after reset.
-/
namespace Sys2Proof.Machine

/-- One listed memory word: a word address, 0 to 65535, and the 16-bit word it holds. The smallest addressable unit is the
word and memory has "no byte view" (spec/20_memory.md R30, R34; log entry 2). -/
abbrev Cell := Nat × Word

/-- The 65536 words of memory (R30): the words that differ from Config.unlistedWord, by rising address. -/
abbrev Memory := List Cell

/-- The canonical form: addresses strictly rising, each in the address space, and no entry equal to what an unlisted address
reads as. Two memories in this form that read alike are the same list. -/
abbrev Memory.wf (m : Memory) : Prop :=
  List.Pairwise (fun c d : Cell => c.1 < d.1) m ∧
    ∀ c ∈ m, c.1 < Config.memWords ∧ c.2 ≠ Config.unlistedWord

/-- The whole architectural state (R10). rz is a code without storage (R12), code 110 names nothing (R14), and there is no
other register, mode, mask, pending bit or counter (R26). -/
structure State where
  /-- r1, 16 bits (R13). -/
  r1 : Word
  /-- r2, 16 bits (R13). -/
  r2 : Word
  /-- r3, 16 bits (R13). -/
  r3 : Word
  /-- r4, 16 bits (R13). -/
  r4 : Word
  /-- The flag register, 16 bits: V, C, N, Z in bits 3 to 0 (R15); bits 15:4 hold 0 (R19). -/
  fl : Word
  /-- The program counter: the word address of the instruction being executed (R21). -/
  pc : Word
  /-- M[0x0000] to M[0xFFFF], instructions and data alike (R30, R32). -/
  mem : Memory
deriving DecidableEq, Repr

/-- What stops the machine. -/
inductive Fault where
  /-- `raise Undefined(reason)` (spec/00_scope.md R9): raised by step for a word the decoder rejects, by the meanings of the
  eight reserved rows (opcode), and by the meaning of a term whose written rd is fl (write-fl). Terminal, no state change.
  Safe: hardware may go on in a way the spec does not say. -/
  | undefined (reason : UndefinedReason)
deriving DecidableEq, Repr

/-- Why the model gives no meaning. -/
inductive Refusal where
  /-- An instruction the model has not reached. Raised by no arm of this model. Safe. -/
  | notModelled (mnemonic : String)
  /-- `jp{z} <label>` whose label lies above 0x00FF: "no single QuAC instruction can do it" and the expansion is "Up to the
  assembler" (spec/43_pseudo.md R126). Raised by the meaning of jpLabel alone, and by no decoded word. Safe. -/
  | labelExpansion
deriving DecidableEq, Repr

/-- What an instruction's meaning answers. -/
abbrev Result := Host.Outcome State Fault Refusal

/-- The state at the start of a run whose initial memory is `image`, the spec's parameter MEM_INIT (spec/70_reset_and_hazards.md
R160, R162): every register holds 0x0000. -/
def State.start (image : Memory) : State where
  r1 := Config.registerReset
  r2 := Config.registerReset
  r3 := Config.registerReset
  r4 := Config.registerReset
  fl := Config.registerReset
  pc := Config.registerReset
  mem := image

/-- The machine right after reset, with no memory word listed (R27, R160; log entry 1 for the memory). -/
def State.reset : State := State.start []

end Sys2Proof.Machine
end

