-- ==== Sys2Proof/Machine/Ops.lean ====
section
/-!
DEFINITION. The operations every meaning shares: memory, the advance of the pc, the condition, and raise Undefined.
QuAC takes no exceptions ("nothing a trap could save state into", spec/60_exceptions.md R140, R144, R145): raiseUndefined
stands where other machines enter a handler.
-/
namespace Sys2Proof.Machine

/-- The word a memory list holds at an address. -/
def Memory.read : Memory → Nat → Word
  | [], _ => Config.unlistedWord
  | (b, w) :: rest, a => if a = b then w else Memory.read rest a

/-- The memory list with the word at one address replaced, kept in canonical form. -/
def Memory.write : Memory → Nat → Word → Memory
  | [], a, v => if v = Config.unlistedWord then [] else [(a, v)]
  | (b, w) :: rest, a, v =>
    if a < b then
      if v = Config.unlistedWord then (b, w) :: rest else (a, v) :: (b, w) :: rest
    else if a = b then
      if v = Config.unlistedWord then rest else (a, v) :: rest
    else (b, w) :: Memory.write rest a v

/-- `MemRead(a, 1)`: M[a], all 16 bits (spec/20_memory.md R36). -/
def loadWord (s : State) (a : Word) : Word := Memory.read s.mem a.toNat

/-- `MemWrite(a, 1, v)`: M[a] := v, all 16 bits at once, no other word changed (R36). -/
def storeWord (s : State) (a v : Word) : State := { s with mem := Memory.write s.mem a.toNat v }

/-- The fetch at the start of every step: M[pc], as the latest store left it (R33, R42). -/
def fetchWord (s : State) : Word := loadWord s s.pc

/-- pc := (a + 1) mod 2^16 (spec/10_state.md R23, R25). -/
def advancePc (s : State) : State := { s with pc := s.pc + 1#16 }

/-- The Z flag, bit 0 of fl (R15). -/
def zFlag (s : State) : Bool := s.fl.getLsbD 0

/-- A conditional instruction fails to execute when its z bit is 1 and the Z flag is 0 (spec/30_encoding.md R56). -/
def conditionFails (z : Bool) (s : State) : Bool := z && !zFlag s

/-- R66: a failed instruction only advances the pc, an executed one has its effect. -/
def ifExecuted (z : Bool) (s : State) (effect : Result) : Result :=
  if conditionFails z s then .next (advancePc s) else effect

/-- `raise Undefined(reason)` (spec/00_scope.md R9): the model's terminal fault. -/
def raiseUndefined (reason : UndefinedReason) : Result := .fault (.undefined reason)

end Sys2Proof.Machine
end

