-- ==== Sys2Proof/Machine/Flags.lean ====
section
/-!
DEFINITION. The four condition codes and the ALU functions that set them (spec/42_alu.md R100 to R108).
-/
namespace Sys2Proof.Machine

/-- The condition codes (spec/10_state.md R15). -/
structure Flags where
  /-- oVerflow -/
  v : Bool
  /-- Carry -/
  c : Bool
  /-- Negative -/
  n : Bool
  /-- Zero -/
  z : Bool
deriving DecidableEq, Repr

/-- `zext_16(V : C : N : Z)`: bits 15:4 are 0 (R100, R19). -/
def Flags.toWord (f : Flags) : Word :=
  BitVec.setWidth 16 (BitVec.ofBool f.v ++ BitVec.ofBool f.c ++ BitVec.ofBool f.n ++ BitVec.ofBool f.z)

/-- What the ALU produces: the 16-bit result and its flags. -/
structure AluOut where
  /-- R, the 16-bit result -/
  value : Word
  /-- the flags of R -/
  flags : Flags
deriving DecidableEq, Repr

/-- Z and N are defined the same way for all four instructions (R101). -/
def aluOut (value : Word) (v c : Bool) : AluOut where
  value := value
  flags := { v := v, c := c, n := value.getLsbD 15, z := decide (value = 0x0000#16) }

/-- A signed result outside -32768 to 32767 (R103, the range form, which is the normative one). -/
def signedOverflow (exact : Int) : Bool := decide (exact < -32768 ∨ 32767 < exact)

/-- add: R = (A + B) mod 2^16, C the carry out of bit 15 (R102, R105). -/
def aluAdd (a b : Word) : AluOut :=
  aluOut (a + b) (signedOverflow (a.toInt + b.toInt)) (decide (65536 ≤ a.toNat + b.toNat))

/-- sub: R = (A - B) mod 2^16, C the borrow itself (R102, R106). -/
def aluSub (a b : Word) : AluOut :=
  aluOut (a - b) (signedOverflow (a.toInt - b.toInt)) (decide (a.toNat < b.toNat))

/-- and: bitwise, C and V zero (R102, R103, R107). -/
def aluAnd (a b : Word) : AluOut := aluOut (a &&& b) false false

/-- orr: bitwise, C and V zero (R102, R103, R108). -/
def aluOrr (a b : Word) : AluOut := aluOut (a ||| b) false false

end Sys2Proof.Machine
end

