-- ==== Sys2Proof/Machine/Operands.lean ====
section
/-!
DEFINITION. Register operands: the read and the write of spec/10_state.md R20, and the static check of a destination.
-/
namespace Sys2Proof.Machine

/-- `x[i]` (R20): rz reads 0x0000, fl reads whole, pc reads as the address of the current instruction. -/
def readReg (s : State) : Reg → Word
  | .rz => 0x0000#16
  | .r1 => s.r1
  | .r2 => s.r2
  | .r3 => s.r3
  | .r4 => s.r4
  | .fl => s.fl
  | .pc => s.pc

/-- `x[rd] <- v`, then `pc <- a + 1` unless the instruction wrote pc (R20, R23): rz discards v, a write to pc is taken as
written with no increment, a write to fl is undefined (R18). -/
def writeResult (s : State) (rd : Reg) (v : Word) : Result :=
  match rd with
  | .rz => .next (advancePc s)
  | .r1 => .next (advancePc { s with r1 := v })
  | .r2 => .next (advancePc { s with r2 := v })
  | .r3 => .next (advancePc { s with r3 := v })
  | .r4 => .next (advancePc { s with r4 := v })
  | .fl => raiseUndefined .writeFl
  | .pc => .next { s with pc := v }

/-- An instruction that writes rd: the definedness check comes before the condition (spec/30_encoding.md R64), the condition
before the effect (R66). -/
def writing (rd : Reg) (z : Bool) (s : State) (effect : Result) : Result :=
  if rd.writable then ifExecuted z s effect else raiseUndefined .writeFl

end Sys2Proof.Machine
end

