-- ==== Sys2Proof/Machine/Alu.lean ====
section
/-!
DEFINITION. The R-Mode ALU instructions, the only ones that write the flag register (spec/42_alu.md, spec/10_state.md R16).
-/
namespace Sys2Proof.Machine

/-- The common shape (R100): both operands are read before anything is written; fl takes the flags of the result; rd takes
the result, which rz discards while the flags are still set. -/
def aluInstr (f : Word → Word → AluOut) (z : Bool) (rd ra rb : Reg) (s : State) : Result :=
  writing rd z s
    (let out := f (readReg s ra) (readReg s rb)
     writeResult { s with fl := out.flags.toWord } rd out.value)

/-- R105: `add{z} rd,ra,rb`. -/
def execAdd (z : Bool) (rd ra rb : Reg) (s : State) : Result := aluInstr aluAdd z rd ra rb s

/-- R106: `sub{z} rd,ra,rb`. -/
def execSub (z : Bool) (rd ra rb : Reg) (s : State) : Result := aluInstr aluSub z rd ra rb s

/-- R107: `and{z} rd,ra,rb`. -/
def execAnd (z : Bool) (rd ra rb : Reg) (s : State) : Result := aluInstr aluAnd z rd ra rb s

/-- R108: `orr{z} rd,ra,rb`. -/
def execOrr (z : Bool) (rd ra rb : Reg) (s : State) : Result := aluInstr aluOrr z rd ra rb s

end Sys2Proof.Machine
end

