-- ==== Sys2Proof/Machine/Imode.lean ====
section
/-!
DEFINITION. The I-Mode instructions (spec/40_imode.md). Neither writes the flags.
-/
namespace Sys2Proof.Machine

/-- R80: `x[rd] <- zext_16(imm8)`. -/
def execMovl (z : Bool) (rd : Reg) (imm8 : Imm8) (s : State) : Result :=
  writing rd z s (writeResult s rd (imm8.setWidth 16))

/-- R81: `x[rd] <- (imm8 << 8) | (x[rd] & 0x00FF)`; for rd = pc the old value is the instruction's own address. -/
def execSeth (z : Bool) (rd : Reg) (imm8 : Imm8) (s : State) : Result :=
  writing rd z s (writeResult s rd ((imm8.setWidth 16 <<< 8) ||| (readReg s rd &&& 0x00FF#16)))

end Sys2Proof.Machine
end

