-- ==== Sys2Proof/Machine/LoadStore.lean ====
section
/-!
DEFINITION. The R-Mode memory instructions (spec/41_memory_instructions.md). Neither writes the flags, and the address
register is never modified (R92).
-/
namespace Sys2Proof.Machine

/-- R90: `M[x[ra]] <- x[rd]`; the pc always advances, "str never writes pc". -/
def execStr (z : Bool) (rd ra : Reg) (s : State) : Result :=
  ifExecuted z s (.next (advancePc (storeWord s (readReg s ra) (readReg s rd))))

/-- R91: `x[rd] <- M[x[ra]]`, the address read before rd is written. -/
def execLdr (z : Bool) (rd ra : Reg) (s : State) : Result :=
  writing rd z s (writeResult s rd (loadWord s (readReg s ra)))

end Sys2Proof.Machine
end

