-- ==== Sys2Proof/Machine/Pseudo.lean ====
section
/-!
DEFINITION. The pseudo-instructions (spec/43_pseudo.md): "a second spelling the assembler accepts for a special case of a
hardware instruction", so each has the meaning of the hardware instruction it is. No word decodes to one of them.
-/
namespace Sys2Proof.Machine

/-- R120: `mov{z} rd, ra` is `add{z} rd, ra, rz`, flags included (spec/92_eei_decisions.md D17). -/
def execMov (z : Bool) (rd ra : Reg) (s : State) : Result := aluInstr aluAdd z rd ra .rz s

/-- R121: `jpr{z} ra` is `add{z} pc, ra, rz`: a jump that also sets the flags. -/
def execJpr (z : Bool) (ra : Reg) (s : State) : Result := aluInstr aluAdd z .pc ra .rz s

/-- R122: `cmp{z} ra, rb` is `sub{z} rz, ra, rb`: the result is discarded, the flags are set. -/
def execCmp (z : Bool) (ra rb : Reg) (s : State) : Result := aluInstr aluSub z .rz ra rb s

/-- R123: `nop` is `movl rz, 0`. -/
def execNop (s : State) : Result := execMovl false .rz 0x00#8 s

/-- R124: `jpm{z} [ra]` is `ldr{z} pc, [ra]`. -/
def execJpm (z : Bool) (ra : Reg) (s : State) : Result := execLdr z .pc ra s

/-- R125: `jp{z} imm8` is `movl{z} pc, imm8`. -/
def execJp (z : Bool) (imm8 : Imm8) (s : State) : Result := execMovl z .pc imm8 s

/-- R126: `jp{z} <label>`. "When the label's address is at most 0x00FF, the one-word form of rule R125 does it"; above that
no single instruction does it and the source fixes no expansion ("Up to the assembler"), so the term is refused by name
(spec/93_implementation_defined.md U8; log entry 3). -/
def execJpLabel (z : Bool) (target : Word) (s : State) : Result :=
  if target.toNat ≤ 0xFF then execMovl z .pc (target.setWidth 8) s else .refused .labelExpansion

end Sys2Proof.Machine
end

