-- ==== Sys2Proof/Machine/Reserved.lean ====
section
/-!
DEFINITION. The eight undefined opcodes (spec/30_encoding.md R62): each is `raise Undefined(opcode)` in every state, whatever
its other twelve bits and whether or not the Z flag is set (R64).
-/
namespace Sys2Proof.Machine

/-- Row 0010. -/
def execUndef0010 (_low : BitVec 12) (_s : State) : Result := raiseUndefined .opcode

/-- Row 0011. -/
def execUndef0011 (_low : BitVec 12) (_s : State) : Result := raiseUndefined .opcode

/-- Row 0110. -/
def execUndef0110 (_low : BitVec 12) (_s : State) : Result := raiseUndefined .opcode

/-- Row 0111. -/
def execUndef0111 (_low : BitVec 12) (_s : State) : Result := raiseUndefined .opcode

/-- Row 1100. -/
def execUndef1100 (_low : BitVec 12) (_s : State) : Result := raiseUndefined .opcode

/-- Row 1101. -/
def execUndef1101 (_low : BitVec 12) (_s : State) : Result := raiseUndefined .opcode

/-- Row 1110. -/
def execUndef1110 (_low : BitVec 12) (_s : State) : Result := raiseUndefined .opcode

/-- Row 1111. -/
def execUndef1111 (_low : BitVec 12) (_s : State) : Result := raiseUndefined .opcode

end Sys2Proof.Machine
end

