-- ==== Sys2Proof/Machine/Dispatch.lean ====
section
/-!
DEFINITION. The meaning of every instruction, one arm per constructor.
-/
namespace Sys2Proof.Machine

/-- The `case op of` of the instruction cycle (spec/30_encoding.md R66). -/
def exec (i : Instr) (s : State) : Host.Outcome State Fault Refusal :=
  match i with
  | .movl z rd imm8 => Sys2Proof.Machine.execMovl z rd imm8 s
  | .seth z rd imm8 => Sys2Proof.Machine.execSeth z rd imm8 s
  | .str z rd ra => Sys2Proof.Machine.execStr z rd ra s
  | .ldr z rd ra => Sys2Proof.Machine.execLdr z rd ra s
  | .add z rd ra rb => Sys2Proof.Machine.execAdd z rd ra rb s
  | .sub z rd ra rb => Sys2Proof.Machine.execSub z rd ra rb s
  | .and z rd ra rb => Sys2Proof.Machine.execAnd z rd ra rb s
  | .orr z rd ra rb => Sys2Proof.Machine.execOrr z rd ra rb s
  | .undef0010 low => Sys2Proof.Machine.execUndef0010 low s
  | .undef0011 low => Sys2Proof.Machine.execUndef0011 low s
  | .undef0110 low => Sys2Proof.Machine.execUndef0110 low s
  | .undef0111 low => Sys2Proof.Machine.execUndef0111 low s
  | .undef1100 low => Sys2Proof.Machine.execUndef1100 low s
  | .undef1101 low => Sys2Proof.Machine.execUndef1101 low s
  | .undef1110 low => Sys2Proof.Machine.execUndef1110 low s
  | .undef1111 low => Sys2Proof.Machine.execUndef1111 low s
  | .mov z rd ra => Sys2Proof.Machine.execMov z rd ra s
  | .jpr z ra => Sys2Proof.Machine.execJpr z ra s
  | .cmp z ra rb => Sys2Proof.Machine.execCmp z ra rb s
  | .nop => Sys2Proof.Machine.execNop s
  | .jpm z ra => Sys2Proof.Machine.execJpm z ra s
  | .jp z imm8 => Sys2Proof.Machine.execJp z imm8 s
  | .jpLabel z target => Sys2Proof.Machine.execJpLabel z target s

end Sys2Proof.Machine
end

