-- ==== Sys2Proof/Machine/Step.lean ====
section
/-!
DEFINITION. One step of the machine (spec/30_encoding.md R66), and a word placed where the next step fetches.
-/
namespace Sys2Proof.Machine

/-- Fetch M[pc], decode, execute; an undefined word is `raise Undefined` with no state change (R66, spec/00_scope.md R9). -/
def step (s : State) : Host.Outcome State Fault Refusal :=
  match decode (fetchWord s) with
  | .ok i => exec i s
  | .error reason => raiseUndefined reason

/-- `s` with the word `w` (its bits above `nbits` zero) stored at the pc. -/
def State.withFetchWord (s : State) (nbits w : Nat) : State :=
  storeWord s s.pc (BitVec.ofNat 16 (w % 2 ^ nbits))

end Sys2Proof.Machine
end

