-- ==== Sys2Proof/Safety.lean ====
section
/-!
DEFINITION. The terms claims are stated in: the invariant of every state a run reaches, the end of a run, a safe run, what an
instruction's fields say of it, and the spec's register and flag notation on 3-bit codes and bits, written from the rules and
not from the machine's own functions.
-/
namespace Sys2Proof

/-! What an instruction's fields say of it. -/

/-- Bit 11 of the instruction (spec/30_encoding.md R54); nop has it 0 (spec/43_pseudo.md R123), and a word of an undefined
opcode has no fields (R59). -/
def Instr.cond : Instr → Bool
  | .movl z _ _ | .seth z _ _ | .str z _ _ | .ldr z _ _ => z
  | .add z _ _ _ | .sub z _ _ _ | .and z _ _ _ | .orr z _ _ _ => z
  | .undef0010 _ | .undef0011 _ | .undef0110 _ | .undef0111 _ => false
  | .undef1100 _ | .undef1101 _ | .undef1110 _ | .undef1111 _ => false
  | .mov z _ _ | .jpr z _ | .cmp z _ _ | .jpm z _ | .jp z _ | .jpLabel z _ => z
  | .nop => false

/-- The same instruction with its z bit 0: the form that always executes (R56). -/
def Instr.unconditional : Instr → Instr
  | .movl _ rd imm8 => .movl false rd imm8
  | .seth _ rd imm8 => .seth false rd imm8
  | .str _ rd ra => .str false rd ra
  | .ldr _ rd ra => .ldr false rd ra
  | .add _ rd ra rb => .add false rd ra rb
  | .sub _ rd ra rb => .sub false rd ra rb
  | .and _ rd ra rb => .and false rd ra rb
  | .orr _ rd ra rb => .orr false rd ra rb
  | .undef0010 low => .undef0010 low
  | .undef0011 low => .undef0011 low
  | .undef0110 low => .undef0110 low
  | .undef0111 low => .undef0111 low
  | .undef1100 low => .undef1100 low
  | .undef1101 low => .undef1101 low
  | .undef1110 low => .undef1110 low
  | .undef1111 low => .undef1111 low
  | .mov _ rd ra => .mov false rd ra
  | .jpr _ ra => .jpr false ra
  | .cmp _ ra rb => .cmp false ra rb
  | .nop => .nop
  | .jpm _ ra => .jpm false ra
  | .jp _ imm8 => .jp false imm8
  | .jpLabel _ target => .jpLabel false target

/-- The destination register: every instruction writes rd but str, whose rd is the data (R55); none for an undefined opcode. -/
def Instr.dest : Instr → Option Reg
  | .movl _ rd _ | .seth _ rd _ | .ldr _ rd _ => some rd
  | .str _ _ _ => none
  | .add _ rd _ _ | .sub _ rd _ _ | .and _ rd _ _ | .orr _ rd _ _ => some rd
  | .undef0010 _ | .undef0011 _ | .undef0110 _ | .undef0111 _ => none
  | .undef1100 _ | .undef1101 _ | .undef1110 _ | .undef1111 _ => none
  | .mov _ rd _ => some rd
  | .cmp _ _ _ | .nop => some .rz
  | .jpr _ _ | .jpm _ _ | .jp _ _ | .jpLabel _ _ => some .pc

/-- An ALU instruction: "exactly add, sub, and, orr and their z forms, hence also the pseudo-instructions built from them
(mov, jpr, cmp)" (spec/00_scope.md glossary). -/
def Instr.isAlu : Instr → Bool
  | .add _ _ _ _ | .sub _ _ _ _ | .and _ _ _ _ | .orr _ _ _ _ => true
  | .mov _ _ _ | .jpr _ _ | .cmp _ _ _ => true
  | .movl _ _ _ | .seth _ _ _ | .str _ _ _ | .ldr _ _ _ => false
  | .undef0010 _ | .undef0011 _ | .undef0110 _ | .undef0111 _ => false
  | .undef1100 _ | .undef1101 _ | .undef1110 _ | .undef1111 _ => false
  | .nop | .jpm _ _ | .jp _ _ | .jpLabel _ _ => false

/-- The store, the one instruction that writes memory (spec/20_memory.md R33). -/
def Instr.isStore : Instr → Bool
  | .str _ _ _ => true
  | .movl _ _ _ | .seth _ _ _ | .ldr _ _ _ => false
  | .add _ _ _ _ | .sub _ _ _ _ | .and _ _ _ _ | .orr _ _ _ _ => false
  | .undef0010 _ | .undef0011 _ | .undef0110 _ | .undef0111 _ => false
  | .undef1100 _ | .undef1101 _ | .undef1110 _ | .undef1111 _ => false
  | .mov _ _ _ | .jpr _ _ | .cmp _ _ _ | .nop | .jpm _ _ | .jp _ _ | .jpLabel _ _ => false

namespace Safety

open Sys2Proof.Machine

/-- What holds of every state a run reaches: memory is in canonical form, and bits 15:4 of fl are 0 (spec/10_state.md R19). -/
def Inv (s : State) : Prop := s.mem.wf ∧ s.fl.extractLsb' 4 12 = 0#12

/-- The spec's default END_OF_RUN (spec/70_reset_and_hazards.md R164): a fixed point of the step function. -/
def Ended (s : State) : Prop := step s = .next s

/-- `k` steps from `s`, stopping at the first fault or refusal. -/
def run (k : Nat) (s : State) : Result := core.run k s

/-- `k` steps from `s` meet no fault and no refusal. -/
def RunsSafely (k : Nat) (s : State) : Prop := ∃ t, run k s = .next t

/-- The state after an outcome, where there is one. -/
def nextState : Result → Option State
  | .next t => some t
  | .fault _ => none
  | .refused _ => none

/-- The reason of an Undefined outcome, where it is one. -/
def faultReason : Result → Option UndefinedReason
  | .next _ => none
  | .fault (.undefined r) => some r
  | .refused _ => none

/-! The spec's notation, on 3-bit register codes and on bits. -/

/-- `x[i]` of spec/10_state.md R20 for a code that names a register. -/
def x (s : State) (i : BitVec 3) : Word :=
  if i = 1#3 then s.r1
  else if i = 2#3 then s.r2
  else if i = 3#3 then s.r3
  else if i = 4#3 then s.r4
  else if i = 5#3 then s.fl
  else if i = 7#3 then s.pc
  else 0#16

/-- `x[i] <- v` for i not 5 or 6, then `if rd != 7: pc <- (a + 1) mod 2^16`, fl taking the given value, memory unchanged
(R20, R23). -/
def afterWrite (s : State) (i : BitVec 3) (v fl : Word) : State :=
  { r1 := if i = 1#3 then v else s.r1
    r2 := if i = 2#3 then v else s.r2
    r3 := if i = 3#3 then v else s.r3
    r4 := if i = 4#3 then v else s.r4
    fl := fl
    pc := if i = 7#3 then v else s.pc + 1#16
    mem := s.mem }

/-- `zext_16(V : C : N : Z)` as a sum of weights: fl[3] = V, fl[2] = C, fl[1] = N, fl[0] = Z (spec/42_alu.md R100). -/
def flagWord (v c n z : Bool) : Word :=
  (if v then 8#16 else 0#16) ||| (if c then 4#16 else 0#16) ||| (if n then 2#16 else 0#16) ||| (if z then 1#16 else 0#16)

/-- V of an addition in bits: operands of equal sign and a result of the other sign (spec/42_alu.md R103, R105). -/
def addOverflowBits (a b r : Word) : Bool :=
  decide (a.getLsbD 15 = b.getLsbD 15 ∧ r.getLsbD 15 ≠ a.getLsbD 15)

/-- V of a subtraction in bits: operands of different sign and a result whose sign is not the first operand's (R103, R106). -/
def subOverflowBits (a b r : Word) : Bool :=
  decide (a.getLsbD 15 ≠ b.getLsbD 15 ∧ r.getLsbD 15 ≠ a.getLsbD 15)

/-- An I-Mode word in the spec's own formula: `op << 12 | z << 11 | rd << 8 | imm8` (spec/40_imode.md R80, R81). -/
def imodeWord (op : BitVec 4) (z : Bool) (rd : BitVec 3) (imm8 : Imm8) : Word :=
  (op.setWidth 16 <<< 12) ||| ((BitVec.ofBool z).setWidth 16 <<< 11) ||| (rd.setWidth 16 <<< 8) ||| imm8.setWidth 16

/-- An R-Mode word in the spec's own formula: `op << 12 | z << 11 | rd << 8 | ra << 4 | rb` (spec/42_alu.md R105). -/
def rmodeWord (op : BitVec 4) (z : Bool) (rd ra rb : BitVec 3) : Word :=
  (op.setWidth 16 <<< 12) ||| ((BitVec.ofBool z).setWidth 16 <<< 11) ||| (rd.setWidth 16 <<< 8) |||
    (ra.setWidth 16 <<< 4) ||| rb.setWidth 16

end Safety

end Sys2Proof
end

