-- ==== Sys2Proof/Certificates/Slice0/Obligations.lean ====
section
/-!
DEFINITION. The statements for the provers. `x`, `afterWrite`, `flagWord`, `imodeWord` and `rmodeWord` are the spec's own
notation on 3-bit codes and bits (Safety.lean); a statement compares the machine with them.
-/

open Sys2Proof Sys2Proof.Machine Sys2Proof.Safety

/-! Reset. -/

/-- R160: at the start, whatever the initial memory, every register holds 0x0000 and the first word fetched is the one
at address 0x0000. -/
def Obligations.EveryRegisterStartsZero : Prop :=
  ∀ s : State, (s = State.reset ∨ ∃ image : Memory, s = State.start image) →
    s.r1 = 0x0000#16 ∧ s.r2 = 0x0000#16 ∧ s.r3 = 0x0000#16 ∧ s.r4 = 0x0000#16 ∧
    s.fl = 0x0000#16 ∧ s.pc = 0x0000#16 ∧ fetchWord s = loadWord s 0x0000#16

/-- R162, D6: MEM_INIT may be any function from addresses to words; each is the memory of some start state, in
canonical form. State.reset is the start with nothing listed. The representation as a list, and that list as reset's
memory, are the model's own (log entries 1 and 2). -/
def Obligations.EveryInitialImageHasAStart : Prop :=
  (∀ memInit : Word → Word, ∃ image : Memory, image.wf ∧ ∀ a : Word, loadWord (State.start image) a = memInit a) ∧
  State.reset = State.start []

/-- The invariant holds at the start of a run, whatever the initial memory (log entry 2 for the canonical form). -/
def Obligations.StartMeetsInvariant : Prop :=
  Inv State.reset ∧ ∀ image : Memory, image.wf → Inv (State.start image)

/-! Encoding. -/

/-- Eight words written out in the spec's examples (S1 to S4, S6, V14, V22) decode to the instruction they stand for. The
ninth clause is the model's (log entry 20): the spec gives 0x6123 the outcome Undefined(opcode) and no instruction (R62,
V124), and the model reads it as the reserved row whose meaning is that outcome. -/
def Obligations.SampleWordsDecode : Prop :=
  decode 0b1001000000010010#16 = .ok (.sub false .rz .r1 .r2) ∧
  decode 0b0000101100000001#16 = .ok (.movl true .r3 1#8) ∧
  decode 0b1000011101110010#16 = .ok (.add false .pc .pc .r2) ∧
  decode 0b0101000101110000#16 = .ok (.ldr false .r1 .pc) ∧
  decode 0b0001000100010010#16 = .ok (.seth false .r1 0x12#8) ∧
  decode 0b0100001001000000#16 = .ok (.str false .r2 .r4) ∧
  decode 0b1010000001010001#16 = .ok (.and false .rz .fl .r1) ∧
  decode 0b1011000001010001#16 = .ok (.orr false .rz .fl .r1) ∧
  decode 0b0110000100100011#16 = .ok (.undef0110 0x123#12)

/-- Every well-formed instruction that is no other spelling of one is what its word decodes to, at every operand
value. That the eight undefined opcodes are instruction terms is the model's (log entry 20). -/
def Obligations.DecodeOfEncode : Prop :=
  ∀ i : Instr, i.wellFormed = true → i.isPseudo = false → decode (encode i) = .ok i

/-- Whatever the decoder answers for a word encodes to that word, every bit of it, and is well formed and no pseudo
row. That words of the eight undefined opcodes get an answer is the model's (log entry 20). -/
def Obligations.EncodeOfDecode : Prop :=
  ∀ (w : Word) (i : Instr), decode w = .ok i → encode i = w ∧ i.wellFormed = true ∧ i.isPseudo = false

/-- The machine code of mov, jpr, cmp, nop, jpm and jp imm8 (R120 to R125) is the word the spec's formula gives, and
decodes to the hardware instruction the row expands to. The last clause is the model's (log entry 3): R126 fixes no
machine code for jp with a label, and the model gives one up to 0x00FF the one-word form of R125. -/
def Obligations.PseudoWordsDecodeToHardware : Prop :=
  (∀ z rd ra, rd ≠ .fl → encode (.mov z rd ra) = rmodeWord 8#4 z rd.code ra.code 0#3 ∧
    decode (encode (.mov z rd ra)) = .ok (.add z rd ra .rz)) ∧
  (∀ z ra, encode (.jpr z ra) = rmodeWord 8#4 z 7#3 ra.code 0#3 ∧ decode (encode (.jpr z ra)) = .ok (.add z .pc ra .rz)) ∧
  (∀ z ra rb, encode (.cmp z ra rb) = rmodeWord 9#4 z 0#3 ra.code rb.code ∧
    decode (encode (.cmp z ra rb)) = .ok (.sub z .rz ra rb)) ∧
  (encode .nop = 0x0000#16 ∧ decode (encode .nop) = .ok (.movl false .rz 0#8)) ∧
  (∀ z ra, encode (.jpm z ra) = rmodeWord 5#4 z 7#3 ra.code 0#3 ∧ decode (encode (.jpm z ra)) = .ok (.ldr z .pc ra)) ∧
  (∀ z n, encode (.jp z n) = imodeWord 0#4 z 7#3 n ∧ decode (encode (.jp z n)) = .ok (.movl z .pc n)) ∧
  (∀ z target, target.toNat ≤ 0xFF → decode (encode (.jpLabel z target)) = .ok (.movl z .pc (target.setWidth 8)))

/-! The step. -/

/-- R66: a step executes the instruction that the word at the pc decodes to, in that state, and stops where it decodes
to none. -/
def Obligations.StepRunsDecodedInstruction : Prop :=
  ∀ s : State,
    (∀ i, decode (loadWord s s.pc) = .ok i → step s = exec i s) ∧
    (∀ r, decode (loadWord s s.pc) = .error r → step s = .fault (.undefined r))

/-- A word placed at the pc is the one the next step runs, as the decoder reads it. -/
def Obligations.PlacedWordIsRun : Prop :=
  ∀ (s : State) (w : Nat) (i : Instr), s.mem.wf → decodeTableWord 16 w = some i →
    step (s.withFetchWord 16 w) = exec i (s.withFetchWord 16 w)

/-- A step at the word of any well-formed instruction runs that instruction; of a pseudo row (spec/43_pseudo.md), as the
hardware instruction its row expands to. That each spelling has a meaning of its own, the word of a
near label, and the reserved rows as instructions are the model's (log entries 4, 3 and 20). -/
def Obligations.StepRunsEncodedInstruction : Prop :=
  ∀ (i : Instr) (s : State), i.wellFormed = true → loadWord s s.pc = encode i →
    decode (encode i) = .ok i.expand ∧ exec i.expand s = exec i s ∧ step s = exec i s

/-- R64, R66: a step has a next state exactly when `Defined(w)` holds of the word at the pc, whatever the rest of the
state and whether or not the condition holds (the spec's decisions D1 and D2, log entries 6 and 7). -/
def Obligations.StepGoesOnIffWordDefined : Prop :=
  ∀ s : State, (∃ t, step s = .next t) ↔ definedWord (loadWord s s.pc) = true

/-- R9, R64, R143: a step that stops is Undefined, for the first of R64's reasons that applies to the word at the pc,
and no step is refused. Rests on the spec's decisions D1, D2 and D5 (log entries 6 and 7). -/
def Obligations.StepStopsForTheFirstReason : Prop :=
  ∀ s : State, (∀ q, step s ≠ .refused q) ∧ faultReason (step s) = undefinedReason (loadWord s s.pc)

/-- R62: an undefined opcode is Undefined(opcode) in every state, as an instruction and as a word, whatever the other
twelve bits (the spec's decision D1, log entries 6 and 20). -/
def Obligations.UndefinedOpcodeStops : Prop :=
  (∀ (low : BitVec 12) (s : State),
    exec (.undef0010 low) s = .fault (.undefined .opcode) ∧ exec (.undef0011 low) s = .fault (.undefined .opcode) ∧
    exec (.undef0110 low) s = .fault (.undefined .opcode) ∧ exec (.undef0111 low) s = .fault (.undefined .opcode) ∧
    exec (.undef1100 low) s = .fault (.undefined .opcode) ∧ exec (.undef1101 low) s = .fault (.undefined .opcode) ∧
    exec (.undef1110 low) s = .fault (.undefined .opcode) ∧ exec (.undef1111 low) s = .fault (.undefined .opcode)) ∧
  (∀ s : State, (loadWord s s.pc).extractLsb' 12 4 ∈ [0x2#4, 0x3#4, 0x6#4, 0x7#4, 0xC#4, 0xD#4, 0xE#4, 0xF#4] →
    step s = .fault (.undefined .opcode))

/-- R61: bit 7 or bit 3 set in a word of an R-Mode opcode is Undefined(reserved-bit), whatever the state (the spec's
decisions D1 and D2, log entries 6 and 7). -/
def Obligations.ReservedBitStops : Prop :=
  ∀ s : State, (loadWord s s.pc).extractLsb' 12 4 ∈ [0x4#4, 0x5#4, 0x8#4, 0x9#4, 0xA#4, 0xB#4] →
    ((loadWord s s.pc).getLsbD 7 = true ∨ (loadWord s s.pc).getLsbD 3 = true) →
    step s = .fault (.undefined .reservedBit)

/-! One whole step of each hardware instruction, from the word up. -/

/-- R80, movl: the step of every word whose op is 0000. Rests on the spec's own decisions D1 and D2 (the outcome
Undefined, tested before the condition; log entries 6 and 7), D3 and D15 (the pc; 8 and 14) and D16 (the high byte
cleared; 15). -/
def Obligations.MovlStep : Prop :=
  ∀ (s : State) (w : Word), loadWord s s.pc = w → w.extractLsb' 12 4 = 0b0000#4 →
    step s =
      if w.extractLsb' 8 3 = 6#3 then .fault (.undefined .register110)
      else if w.extractLsb' 8 3 = 5#3 then .fault (.undefined .writeFl)
      else if w.getLsbD 11 = true ∧ s.fl.getLsbD 0 = false then .next { s with pc := s.pc + 1#16 }
      else .next (afterWrite s (w.extractLsb' 8 3) ((w.extractLsb' 0 8).setWidth 16) s.fl)

/-- R81, seth: the step of every word whose op is 0001, imm8 over the old low byte. Rests on the spec's own decisions
D1 and D2 (the outcome Undefined, tested before the condition; log entries 6 and 7), D3 and D15 (the pc; 8 and 14) and
D14 (reads first; 13). -/
def Obligations.SethStep : Prop :=
  ∀ (s : State) (w : Word), loadWord s s.pc = w → w.extractLsb' 12 4 = 0b0001#4 →
    step s =
      if w.extractLsb' 8 3 = 6#3 then .fault (.undefined .register110)
      else if w.extractLsb' 8 3 = 5#3 then .fault (.undefined .writeFl)
      else if w.getLsbD 11 = true ∧ s.fl.getLsbD 0 = false then .next { s with pc := s.pc + 1#16 }
      else .next (afterWrite s (w.extractLsb' 8 3)
        (w.extractLsb' 0 8 ++ (x s (w.extractLsb' 8 3)).extractLsb' 0 8) s.fl)

/-- R90, str: the step of every word whose op is 0100; the memory after is given by every word read from it. Rests on
the spec's own decisions D1 and D2 (the outcome Undefined, tested before the condition; log entries 6 and 7), D3 and
D15 (the pc; 8 and 14), D5 (bits 2:0; 6) and D8 (every word is storage; 10). The premise s.mem.wf is the model's (log
entry 2). -/
def Obligations.StrStep : Prop :=
  ∀ (s : State) (w : Word), s.mem.wf → loadWord s s.pc = w → w.extractLsb' 12 4 = 0b0100#4 →
    if w.getLsbD 7 = true ∨ w.getLsbD 3 = true then step s = .fault (.undefined .reservedBit)
    else if w.extractLsb' 0 3 ≠ 0#3 then step s = .fault (.undefined .ldstLowBits)
    else if w.extractLsb' 8 3 = 6#3 ∨ w.extractLsb' 4 3 = 6#3 then step s = .fault (.undefined .register110)
    else if w.getLsbD 11 = true ∧ s.fl.getLsbD 0 = false then step s = .next { s with pc := s.pc + 1#16 }
    else ∃ m : Memory, step s = .next { s with pc := s.pc + 1#16, mem := m } ∧
      ∀ a : Word, loadWord { s with mem := m } a =
        if a = x s (w.extractLsb' 4 3) then x s (w.extractLsb' 8 3) else loadWord s a

/-- R91, ldr: the step of every word whose op is 0101. Rests on the spec's own decisions D1 and D2 (the outcome
Undefined, tested before the condition; log entries 6 and 7), D3 and D15 (the pc; 8 and 14), D5 (bits 2:0; 6), D8 (10)
and D14 (reads first; 13). -/
def Obligations.LdrStep : Prop :=
  ∀ (s : State) (w : Word), loadWord s s.pc = w → w.extractLsb' 12 4 = 0b0101#4 →
    step s =
      if w.getLsbD 7 = true ∨ w.getLsbD 3 = true then .fault (.undefined .reservedBit)
      else if w.extractLsb' 0 3 ≠ 0#3 then .fault (.undefined .ldstLowBits)
      else if w.extractLsb' 8 3 = 6#3 ∨ w.extractLsb' 4 3 = 6#3 then .fault (.undefined .register110)
      else if w.extractLsb' 8 3 = 5#3 then .fault (.undefined .writeFl)
      else if w.getLsbD 11 = true ∧ s.fl.getLsbD 0 = false then .next { s with pc := s.pc + 1#16 }
      else .next (afterWrite s (w.extractLsb' 8 3) (loadWord s (x s (w.extractLsb' 4 3))) s.fl)

/-- R105, add: the step of every word whose op is 1000, V in the bit form of the rule's pseudocode. Rests on the
spec's own decisions D1 and D2 (the outcome Undefined, tested before the condition; log entries 6 and 7), D3 and D15
(the pc; 8 and 14), D4 (bits 15:4 of fl; 9), D14 (reads first; 13) and D21 (carry; 17). -/
def Obligations.AddStep : Prop :=
  ∀ (s : State) (w : Word), loadWord s s.pc = w → w.extractLsb' 12 4 = 0b1000#4 →
    let a := x s (w.extractLsb' 4 3)
    let b := x s (w.extractLsb' 0 3)
    let r := BitVec.ofNat 16 ((a.toNat + b.toNat) % 65536)
    step s =
      if w.getLsbD 7 = true ∨ w.getLsbD 3 = true then .fault (.undefined .reservedBit)
      else if w.extractLsb' 8 3 = 6#3 ∨ w.extractLsb' 4 3 = 6#3 ∨ w.extractLsb' 0 3 = 6#3 then
        .fault (.undefined .register110)
      else if w.extractLsb' 8 3 = 5#3 then .fault (.undefined .writeFl)
      else if w.getLsbD 11 = true ∧ s.fl.getLsbD 0 = false then .next { s with pc := s.pc + 1#16 }
      else .next (afterWrite s (w.extractLsb' 8 3) r
        (flagWord (addOverflowBits a b r) (decide (a.toNat + b.toNat ≥ 65536)) (r.getLsbD 15) (decide (r = 0#16))))

/-- R106, sub: the step of every word whose op is 1001, C the borrow. Rests on the spec's own decisions D1 and D2 (the
outcome Undefined, tested before the condition; log entries 6 and 7), D3 and D15 (the pc; 8 and 14), D4 (bits 15:4 of
fl; 9), D14 (reads first; 13) and D21 (borrow; 17). -/
def Obligations.SubStep : Prop :=
  ∀ (s : State) (w : Word), loadWord s s.pc = w → w.extractLsb' 12 4 = 0b1001#4 →
    let a := x s (w.extractLsb' 4 3)
    let b := x s (w.extractLsb' 0 3)
    let r := BitVec.ofNat 16 ((a.toNat + (65536 - b.toNat)) % 65536)
    step s =
      if w.getLsbD 7 = true ∨ w.getLsbD 3 = true then .fault (.undefined .reservedBit)
      else if w.extractLsb' 8 3 = 6#3 ∨ w.extractLsb' 4 3 = 6#3 ∨ w.extractLsb' 0 3 = 6#3 then
        .fault (.undefined .register110)
      else if w.extractLsb' 8 3 = 5#3 then .fault (.undefined .writeFl)
      else if w.getLsbD 11 = true ∧ s.fl.getLsbD 0 = false then .next { s with pc := s.pc + 1#16 }
      else .next (afterWrite s (w.extractLsb' 8 3) r
        (flagWord (subOverflowBits a b r) (decide (a.toNat < b.toNat)) (r.getLsbD 15) (decide (r = 0#16))))

/-- R107, and: the step of every word whose op is 1010. Rests on the spec's own decisions D1 and D2 (the outcome
Undefined, tested before the condition; log entries 6 and 7), D3 and D15 (the pc; 8 and 14), D4 (bits 15:4 of fl; 9),
D14 (reads first; 13). -/
def Obligations.AndStep : Prop :=
  ∀ (s : State) (w : Word), loadWord s s.pc = w → w.extractLsb' 12 4 = 0b1010#4 →
    let r := x s (w.extractLsb' 4 3) &&& x s (w.extractLsb' 0 3)
    step s =
      if w.getLsbD 7 = true ∨ w.getLsbD 3 = true then .fault (.undefined .reservedBit)
      else if w.extractLsb' 8 3 = 6#3 ∨ w.extractLsb' 4 3 = 6#3 ∨ w.extractLsb' 0 3 = 6#3 then
        .fault (.undefined .register110)
      else if w.extractLsb' 8 3 = 5#3 then .fault (.undefined .writeFl)
      else if w.getLsbD 11 = true ∧ s.fl.getLsbD 0 = false then .next { s with pc := s.pc + 1#16 }
      else .next (afterWrite s (w.extractLsb' 8 3) r (flagWord false false (r.getLsbD 15) (decide (r = 0#16))))

/-- R108, orr: the step of every word whose op is 1011. Rests on the spec's own decisions D1 and D2 (the outcome
Undefined, tested before the condition; log entries 6 and 7), D3 and D15 (the pc; 8 and 14), D4 (bits 15:4 of fl; 9),
D14 (reads first; 13). -/
def Obligations.OrrStep : Prop :=
  ∀ (s : State) (w : Word), loadWord s s.pc = w → w.extractLsb' 12 4 = 0b1011#4 →
    let r := x s (w.extractLsb' 4 3) ||| x s (w.extractLsb' 0 3)
    step s =
      if w.getLsbD 7 = true ∨ w.getLsbD 3 = true then .fault (.undefined .reservedBit)
      else if w.extractLsb' 8 3 = 6#3 ∨ w.extractLsb' 4 3 = 6#3 ∨ w.extractLsb' 0 3 = 6#3 then
        .fault (.undefined .register110)
      else if w.extractLsb' 8 3 = 5#3 then .fault (.undefined .writeFl)
      else if w.getLsbD 11 = true ∧ s.fl.getLsbD 0 = false then .next { s with pc := s.pc + 1#16 }
      else .next (afterWrite s (w.extractLsb' 8 3) r (flagWord false false (r.getLsbD 15) (decide (r = 0#16))))

/-! Each instruction completes, with its result, whenever its condition holds. -/

/-- movl and seth complete in every state for every rd but fl: the result in rd, the pc after it, nothing else
changed. Rests on the spec's decisions D3, D14 and D16 (log entries 8, 13, 15). -/
def Obligations.ImodeInstructionsComplete : Prop :=
  ∀ (z : Bool) (rd : Reg) (imm8 : Imm8) (s : State), rd ≠ .fl → (z = true → s.fl.getLsbD 0 = true) →
    exec (.movl z rd imm8) s = .next (afterWrite s rd.code (BitVec.ofNat 16 imm8.toNat) s.fl) ∧
    exec (.seth z rd imm8) s =
      .next (afterWrite s rd.code (BitVec.ofNat 16 (imm8.toNat * 256 + (x s rd.code).toNat % 256)) s.fl)

/-- str completes in every state for every rd and ra: M[x[ra]] holds x[rd], every other word, every register and the
flags are as before, and the pc advances even for rd = pc. Rests on the spec's decisions D3 and D8 (log entries 8,
10); m.wf is the model's canonical form (log entry 2). -/
def Obligations.StoreCompletes : Prop :=
  ∀ (z : Bool) (rd ra : Reg) (s : State), s.mem.wf → (z = true → s.fl.getLsbD 0 = true) →
    ∃ m : Memory, exec (.str z rd ra) s = .next { s with pc := s.pc + 1#16, mem := m } ∧ m.wf ∧
      loadWord { s with mem := m } (x s ra.code) = x s rd.code ∧
      ∀ a : Word, a ≠ x s ra.code → loadWord { s with mem := m } a = loadWord s a

/-- ldr completes in every state for every ra and every rd but fl, from every address. Rests on D3, D8 and D14 (log
entries 8, 10, 13). -/
def Obligations.LoadCompletes : Prop :=
  ∀ (z : Bool) (rd ra : Reg) (s : State), rd ≠ .fl → (z = true → s.fl.getLsbD 0 = true) →
    exec (.ldr z rd ra) s = .next (afterWrite s rd.code (loadWord s (x s ra.code)) s.fl)

/-- add, sub, and, orr complete in every state for every ra, rb and every rd but fl, with V in the range form of R103
and the operands as they were before the instruction. Rests on D3, D4, D14 and D21 (log entries 8, 9, 13, 17). -/
def Obligations.AluInstructionsComplete : Prop :=
  ∀ (z : Bool) (rd ra rb : Reg) (s : State), rd ≠ .fl → (z = true → s.fl.getLsbD 0 = true) →
    let a := x s ra.code
    let b := x s rb.code
    exec (.add z rd ra rb) s = .next (afterWrite s rd.code (a + b)
      (flagWord (decide (a.toInt + b.toInt < -32768 ∨ a.toInt + b.toInt > 32767)) (decide (a.toNat + b.toNat ≥ 65536))
        ((a + b).getLsbD 15) (decide (a + b = 0#16)))) ∧
    exec (.sub z rd ra rb) s = .next (afterWrite s rd.code (a - b)
      (flagWord (decide (a.toInt - b.toInt < -32768 ∨ a.toInt - b.toInt > 32767)) (decide (a.toNat < b.toNat))
        ((a - b).getLsbD 15) (decide (a - b = 0#16)))) ∧
    exec (.and z rd ra rb) s = .next (afterWrite s rd.code (a &&& b)
      (flagWord false false ((a &&& b).getLsbD 15) (decide (a &&& b = 0#16)))) ∧
    exec (.orr z rd ra rb) s = .next (afterWrite s rd.code (a ||| b)
      (flagWord false false ((a ||| b).getLsbD 15) (decide (a ||| b = 0#16))))

/-! The pseudo-instructions. -/

/-- R120: mov is the add it expands to, for every rd; executed with rd not fl it moves x[ra] and rewrites the flags
from the value, C and V zero. That a mov sets flags is the spec's reading D17 (log entry 16). -/
def Obligations.MovCompletes : Prop :=
  ∀ (z : Bool) (rd ra : Reg) (s : State),
    encode (.mov z rd ra) = rmodeWord 8#4 z rd.code ra.code 0#3 ∧
    exec (.mov z rd ra) s = exec (.add z rd ra .rz) s ∧
    (rd ≠ .fl → (z = true → s.fl.getLsbD 0 = true) → exec (.mov z rd ra) s = .next (afterWrite s rd.code (x s ra.code)
      (flagWord false false ((x s ra.code).getLsbD 15) (decide (x s ra.code = 0#16)))))

/-- R121: jpr jumps to x[ra], all 16 bits, no increment added, and rewrites the flags from the target; where its
condition fails it falls through with the flags untouched. That a jpr sets flags is the spec's reading D17 (log entry
16), the fall-through D15 (log entry 14). -/
def Obligations.JprCompletes : Prop :=
  ∀ (z : Bool) (ra : Reg) (s : State),
    encode (.jpr z ra) = rmodeWord 8#4 z 7#3 ra.code 0#3 ∧
    exec (.jpr z ra) s = exec (.add z .pc ra .rz) s ∧
    ((z = true → s.fl.getLsbD 0 = true) → exec (.jpr z ra) s = .next { s with
      pc := x s ra.code, fl := flagWord false false ((x s ra.code).getLsbD 15) (decide (x s ra.code = 0#16)) }) ∧
    (z = true → s.fl.getLsbD 0 = false → exec (.jpr z ra) s = .next { s with pc := s.pc + 1#16 })

/-- R122: cmp changes no register; Z is equality, C the unsigned comparison, N and V those of the difference. The
reading of C as the borrow is D21 (log entry 17), the pc's wrap D3 (log entry 8). -/
def Obligations.CmpCompletes : Prop :=
  ∀ (z : Bool) (ra rb : Reg) (s : State),
    encode (.cmp z ra rb) = rmodeWord 9#4 z 0#3 ra.code rb.code ∧
    exec (.cmp z ra rb) s = exec (.sub z .rz ra rb) s ∧
    ((z = true → s.fl.getLsbD 0 = true) → exec (.cmp z ra rb) s = .next { s with
      pc := s.pc + 1#16
      fl := flagWord (subOverflowBits (x s ra.code) (x s rb.code) (x s ra.code - x s rb.code))
        ((x s ra.code).ult (x s rb.code)) ((x s ra.code - x s rb.code).getLsbD 15)
        (decide (x s ra.code = x s rb.code)) })

/-- R123: nop is the word 0x0000, which decodes as movl rz, 0, and changes nothing but the pc (whose wrap at 0xFFFF is
the spec's decision D3, log entry 8). -/
def Obligations.NopCompletes : Prop :=
  encode .nop = 0x0000#16 ∧ decode 0x0000#16 = .ok (.movl false .rz 0#8) ∧
  ∀ s : State, exec .nop s = .next { s with pc := s.pc + 1#16 } ∧
    (loadWord s s.pc = 0x0000#16 → step s = .next { s with pc := s.pc + 1#16 })

/-- R124: jpm jumps to M[x[ra]], no increment added, flags untouched. -/
def Obligations.JpmCompletes : Prop :=
  ∀ (z : Bool) (ra : Reg) (s : State),
    encode (.jpm z ra) = rmodeWord 5#4 z 7#3 ra.code 0#3 ∧
    exec (.jpm z ra) s = exec (.ldr z .pc ra) s ∧
    ((z = true → s.fl.getLsbD 0 = true) → exec (.jpm z ra) s = .next { s with pc := loadWord s (x s ra.code) })

/-- R125: jp jumps to zext_16(imm8), flags untouched; jpz continues at a + 1 where Z is 0 (the spec's reading D15, log
entry 14). -/
def Obligations.JpCompletes : Prop :=
  ∀ (z : Bool) (imm8 : Imm8) (s : State),
    encode (.jp z imm8) = imodeWord 0#4 z 7#3 imm8 ∧
    exec (.jp z imm8) s = exec (.movl z .pc imm8) s ∧
    ((z = true → s.fl.getLsbD 0 = true) → exec (.jp z imm8) s = .next { s with pc := imm8.setWidth 16 }) ∧
    (z = true → s.fl.getLsbD 0 = false → exec (.jp z imm8) s = .next { s with pc := s.pc + 1#16 })

/-- jp <label> (R126: "pc := <label>", machine code "Up to the assembler"). The source fixes no expansion; what each
clause says rests on log entry 3: a label at most 0x00FF is reached as the one-word jump of R125 reaches it, and a label
above that is refused by name. -/
def Obligations.LabelJumpCompletesInReach : Prop :=
  ∀ (z : Bool) (target : Word) (s : State),
    (target.toNat ≤ 0xFF → (z = true → s.fl.getLsbD 0 = true) →
      exec (.jpLabel z target) s = .next { s with pc := target }) ∧
    (target.toNat ≤ 0xFF → z = true → s.fl.getLsbD 0 = false →
      exec (.jpLabel z target) s = .next { s with pc := s.pc + 1#16 }) ∧
    (0xFF < target.toNat → exec (.jpLabel z target) s = .refused .labelExpansion)

/-! Whole-machine rules. -/

/-- R56: with the condition failing every defined instruction only advances the pc, whatever its rd; with it holding,
and for z = 0, the instruction is its unconditional form. That a failed instruction still advances the pc is the
spec's reading D15 (log entry 14). -/
def Obligations.ConditionSelectsEffectOrAdvance : Prop :=
  ∀ (i : Instr) (s : State), i.defined = true →
    (i.cond = true → s.fl.getLsbD 0 = false → exec i s = .next { s with pc := s.pc + 1#16 }) ∧
    ((i.cond = true → s.fl.getLsbD 0 = true) → exec i s = exec i.unconditional s)

/-- Every defined instruction completes in every state; a jp to a label up to 0x00FF is among them by log entry 3. -/
def Obligations.DefinedInstructionsAlwaysComplete : Prop :=
  ∀ (i : Instr) (s : State), i.defined = true → ∃ t, exec i s = .next t

/-- R16: fl changes only where an ALU instruction executes, and is then `zext_16(V:C:N:Z)`, a value 0x0000 to 0x000F
(bits 15:4 by the spec's decision D4, log entry 9). -/
def Obligations.OnlyExecutedAluWritesFlags : Prop :=
  ∀ (i : Instr) (s t : State), exec i s = .next t →
    (i.isAlu = false ∨ (i.cond = true ∧ s.fl.getLsbD 0 = false) → t.fl = s.fl) ∧
    (i.isAlu = true → (i.cond = true → s.fl.getLsbD 0 = true) → t.fl.toNat ≤ 0xF)

/-- Frame of every instruction: a general register changes only where it is the executed instruction's rd. -/
def Obligations.OnlyDestinationChanges : Prop :=
  ∀ (i : Instr) (s t : State), exec i s = .next t →
    (∀ r : Reg, r ∈ [Reg.r1, Reg.r2, Reg.r3, Reg.r4] →
      i.dest ≠ some r ∨ (i.cond = true ∧ s.fl.getLsbD 0 = false) → readReg t r = readReg s r) ∧
    readReg t .rz = 0x0000#16

/-- R23, R25: unless an executed instruction wrote it, the pc is (a + 1) mod 2^16 afterwards, 0x0000 after 0xFFFF (the
spec's decisions D3 and D15, log entries 8 and 14). -/
def Obligations.PcAdvancesUnlessWritten : Prop :=
  ∀ (i : Instr) (s t : State), exec i s = .next t →
    (i.dest ≠ some .pc ∨ (i.cond = true ∧ s.fl.getLsbD 0 = false)) →
      t.pc.toNat = (s.pc.toNat + 1) % 65536

/-- R33: a step changes memory only where it executes a str, and then only the word at x[ra]. -/
def Obligations.OnlyStoreWritesMemory : Prop :=
  (∀ (i : Instr) (s t : State), exec i s = .next t →
    i.isStore = false ∨ (i.cond = true ∧ s.fl.getLsbD 0 = false) → ∀ a : Word, loadWord t a = loadWord s a) ∧
  (∀ (z : Bool) (rd ra : Reg) (s t : State), exec (.str z rd ra) s = .next t →
    ∀ a : Word, a ≠ x s ra.code → loadWord t a = loadWord s a)

/-- Frame of str: registers and flags are as before in every case, and the pc advances. -/
def Obligations.StoreChangesNoRegister : Prop :=
  ∀ (z : Bool) (rd ra : Reg) (s t : State), exec (.str z rd ra) s = .next t →
    (∀ r : Reg, r ≠ .pc → readReg t r = readReg s r) ∧ t.pc = s.pc + 1#16

/-- R12: rz reads 0x0000 in every state; an instruction whose rd is rz writes no register and does everything else it
does: an executed add, sub, and, orr sets the flags the same operands give with any other rd, any other instruction
changes nothing but the pc, and the pc advances in both (its wrap at 0xFFFF is the spec's decision D3, its advance under
a failed condition D15; log entries 8 and 14). -/
def Obligations.ZeroRegisterDiscardsWrites : Prop :=
  (∀ s : State, readReg s .rz = 0x0000#16) ∧
  (∀ (mk : Bool → Reg → Reg → Reg → Instr) (z : Bool) (rd ra rb : Reg) (s : State),
    mk ∈ [Instr.add, Instr.sub, Instr.and, Instr.orr] → (z = true → s.fl.getLsbD 0 = true) → rd ≠ .fl →
    ∃ u, exec (mk z rd ra rb) s = .next u ∧ exec (mk z .rz ra rb) s = .next { s with pc := s.pc + 1#16, fl := u.fl }) ∧
  (∀ (i : Instr) (s : State), i.dest = some .rz → i.isAlu = false → exec i s = .next { s with pc := s.pc + 1#16 })

/-- R18, R64: an instruction other than str whose rd is fl is Undefined(write-fl), whether or not its condition holds;
str reads fl as its data. Rests on the spec's decisions D1 and D2 (log entries 6, 7 and 18). -/
def Obligations.FlagDestinationStops : Prop :=
  (∀ (i : Instr) (s : State), i.dest = some .fl → exec i s = .fault (.undefined .writeFl)) ∧
  (∀ (z : Bool) (ra : Reg) (s : State), ∃ t, exec (.str z .fl ra) s = .next t)

/-- R101: Z and N after an executed add, sub, and, orr describe the 16-bit result, whatever rd is. -/
def Obligations.ZeroAndNegativeDescribeResult : Prop :=
  ∀ (z : Bool) (rd ra rb : Reg) (s t : State), (z = true → s.fl.getLsbD 0 = true) →
    let a := x s ra.code
    let b := x s rb.code
    (exec (.add z rd ra rb) s = .next t →
      t.fl.getLsbD 0 = decide (a + b = 0#16) ∧ t.fl.getLsbD 1 = (a + b).getLsbD 15) ∧
    (exec (.sub z rd ra rb) s = .next t →
      t.fl.getLsbD 0 = decide (a - b = 0#16) ∧ t.fl.getLsbD 1 = (a - b).getLsbD 15) ∧
    (exec (.and z rd ra rb) s = .next t →
      t.fl.getLsbD 0 = decide (a &&& b = 0#16) ∧ t.fl.getLsbD 1 = (a &&& b).getLsbD 15) ∧
    (exec (.orr z rd ra rb) s = .next t →
      t.fl.getLsbD 0 = decide (a ||| b = 0#16) ∧ t.fl.getLsbD 1 = (a ||| b).getLsbD 15)

/-- R102: C after an executed add, sub, and, orr; carry and borrow as the spec reads them (D21, log entry 17). -/
def Obligations.CarryIsUnsignedOverflow : Prop :=
  ∀ (z : Bool) (rd ra rb : Reg) (s t : State), (z = true → s.fl.getLsbD 0 = true) →
    (exec (.add z rd ra rb) s = .next t →
      t.fl.getLsbD 2 = decide ((x s ra.code).toNat + (x s rb.code).toNat ≥ 65536)) ∧
    (exec (.sub z rd ra rb) s = .next t → t.fl.getLsbD 2 = decide ((x s ra.code).toNat < (x s rb.code).toNat)) ∧
    (exec (.and z rd ra rb) s = .next t → t.fl.getLsbD 2 = false) ∧
    (exec (.orr z rd ra rb) s = .next t → t.fl.getLsbD 2 = false)

/-- R103: V after an executed add, sub, and, orr, in the range form, the spec's reading D21 (log entry 17), and in the bit
form, which the spec derives from it. -/
def Obligations.OverflowIsSignedOverflow : Prop :=
  ∀ (z : Bool) (rd ra rb : Reg) (s t : State), (z = true → s.fl.getLsbD 0 = true) →
    let a := x s ra.code
    let b := x s rb.code
    (exec (.add z rd ra rb) s = .next t →
      t.fl.getLsbD 3 = decide (a.toInt + b.toInt < -32768 ∨ a.toInt + b.toInt > 32767) ∧
      t.fl.getLsbD 3 = addOverflowBits a b (a + b)) ∧
    (exec (.sub z rd ra rb) s = .next t →
      t.fl.getLsbD 3 = decide (a.toInt - b.toInt < -32768 ∨ a.toInt - b.toInt > 32767) ∧
      t.fl.getLsbD 3 = subOverflowBits a b (a - b)) ∧
    (exec (.and z rd ra rb) s = .next t → t.fl.getLsbD 3 = false) ∧
    (exec (.orr z rd ra rb) s = .next t → t.fl.getLsbD 3 = false)

/-- R106, corner case, which the spec derives from R101 and R103: after an executed sub, ra < rb signed exactly when N
differs from V. -/
def Obligations.SubtractOrdersSigned : Prop :=
  ∀ (z : Bool) (rd ra rb : Reg) (s t : State), (z = true → s.fl.getLsbD 0 = true) →
    exec (.sub z rd ra rb) s = .next t →
    (t.fl.getLsbD 1 ≠ t.fl.getLsbD 3 ↔ (x s ra.code).toInt < (x s rb.code).toInt)

/-- R11: the register table, and what a read of each register gives (R20: pc reads as the current instruction's
address). -/
def Obligations.RegisterCodeTable : Prop :=
  Reg.ofCode 0b000#3 = some .rz ∧ Reg.ofCode 0b001#3 = some .r1 ∧ Reg.ofCode 0b010#3 = some .r2 ∧
  Reg.ofCode 0b011#3 = some .r3 ∧ Reg.ofCode 0b100#3 = some .r4 ∧ Reg.ofCode 0b101#3 = some .fl ∧
  Reg.ofCode 0b110#3 = none ∧ Reg.ofCode 0b111#3 = some .pc ∧
  ∀ s : State, readReg s .rz = 0x0000#16 ∧ readReg s .r1 = s.r1 ∧ readReg s .r2 = s.r2 ∧ readReg s .r3 = s.r3 ∧
    readReg s .r4 = s.r4 ∧ readReg s .fl = s.fl ∧ readReg s .pc = s.pc

/-- R82: movl rd, K[7:0] then seth rd, K[15:8] leaves K in rd, for rd one of r1 to r4. -/
def Obligations.TwoInstructionsLoadAConstant : Prop :=
  ∀ (k : Word) (rd : Reg) (s : State), rd ∈ [Reg.r1, Reg.r2, Reg.r3, Reg.r4] →
    ∃ t u, exec (.movl false rd (k.extractLsb' 0 8)) s = .next t ∧ exec (.seth false rd (k.extractLsb' 8 8)) t = .next u ∧
      readReg u rd = k ∧ u.fl = s.fl ∧ u.mem = s.mem

/-! Memory. -/

/-- R36: a write sets the whole word at its address and changes no other word; a read returns it; ldr copies the 16
bits into the register and str copies the 16 bits out. The premise s.mem.wf is the model's, a list that stands for a
function (log entry 2). -/
def Obligations.StoredWordIsRead : Prop :=
  ∀ s : State, s.mem.wf →
    (∀ a v b : Word, loadWord (storeWord s a v) b = if b = a then v else loadWord s b) ∧
    (∀ rd ra : Reg, rd ∈ [Reg.r1, Reg.r2, Reg.r3, Reg.r4] →
      ∃ t, exec (.ldr false rd ra) s = .next t ∧ readReg t rd = loadWord s (x s ra.code) ∧ t.mem = s.mem) ∧
    (∀ rd ra : Reg, ∃ t, exec (.str false rd ra) s = .next t ∧ loadWord t (x s ra.code) = x s rd.code)

/-- R34: memory is a function from addresses to words: two canonical memories that read alike are one list. The list
is the model's representation (log entry 2). -/
def Obligations.MemoryIsItsReadings : Prop :=
  ∀ s t : State, s.mem.wf → t.mem.wf → (∀ a : Word, loadWord s a = loadWord t a) → s.mem = t.mem

/-- R42: where an executed str answers a next state, a fetch of its address from that memory gives the stored word, and
the pc is one on, at its own address too (the spec's decision D9, log entry 11). That the str completes is
StoreCompletes. -/
def Obligations.StoreIsSeenByFetch : Prop :=
  ∀ (z : Bool) (rd ra : Reg) (s t u : State), s.mem.wf → (z = true → s.fl.getLsbD 0 = true) →
    exec (.str z rd ra) s = .next t → u.mem = t.mem → u.pc = x s ra.code →
    t.pc = s.pc + 1#16 ∧ fetchWord u = x s rd.code

/-! Invariants and runs. -/

/-- The invariant is kept by every step: memory stays canonical and bits 15:4 of fl stay 0 (R19, the spec's decision
D4, log entry 9; the canonical form is the model's, log entry 2). -/
def Obligations.StepKeepsInvariant : Prop :=
  ∀ s t : State, Inv s → step s = .next t → Inv t

/-- The invariant holds of every state a run from a state that meets it reaches (log entries 2 and 9). -/
def Obligations.RunKeepsInvariant : Prop :=
  ∀ (k : Nat) (s t : State), Inv s → run k s = .next t → Inv t

/-- R9, R163: a run of k steps has a next state exactly when each state it passes through holds a defined word at its
pc; it never ends in a refusal, and one that faults faults as Undefined at such a state. Rests on the spec's decisions
D1 and D2 (log entries 6 and 7). -/
def Obligations.RunIsSafeIffEveryFetchedWordIsDefined : Prop :=
  ∀ (k : Nat) (s : State),
    (RunsSafely k s ↔ ∀ j < k, ∃ t, run j s = .next t ∧ definedWord (loadWord t t.pc) = true) ∧
    (∀ q, run k s ≠ .refused q) ∧
    (∀ r, run k s = .fault (.undefined r) →
      ∃ j < k, ∃ t, run j s = .next t ∧ undefinedReason (loadWord t t.pc) = some r)

/-- R164: a run has ended exactly when the pc holds the address of a defined instruction that executes, has rd = pc,
and whose next state is the state itself; every later step leaves such a state as it is (the spec's convention D7, log
entry 19). -/
def Obligations.EndedIsAnExecutedSelfJump : Prop :=
  ∀ s : State, Ended s ↔
    ∃ i : Instr, decode (loadWord s s.pc) = .ok i ∧ i.defined = true ∧ (i.cond = true → s.fl.getLsbD 0 = true) ∧
      i.dest = some .pc ∧ exec i s = .next s ∧ ∀ k : Nat, run k s = .next s

/-- R164: `jp n` standing at address n (word 0x07nn) changes nothing at all; `jpr pc` (0x8770) is a fixed point from
its second execution on (D7, log entry 19). -/
def Obligations.SelfJumpsEndARun : Prop :=
  (∀ (s : State) (n : Imm8), s.pc = n.setWidth 16 → loadWord s s.pc = imodeWord 0#4 false 7#3 n → Ended s) ∧
  (∀ s : State, loadWord s s.pc = 0x8770#16 → ∃ t, step s = .next t ∧ t.pc = s.pc ∧ Ended t)
end

