-- ==== Sys2Proof/Laws/State.lean ====
section
/-!
SUPPORT. One lemma per field for each update of the state, so that no proof unfolds a record update.
-/
namespace Sys2Proof.Machine

@[simp] theorem advancePc_r1 (s : State) : (advancePc s).r1 = s.r1 := rfl
@[simp] theorem advancePc_r2 (s : State) : (advancePc s).r2 = s.r2 := rfl
@[simp] theorem advancePc_r3 (s : State) : (advancePc s).r3 = s.r3 := rfl
@[simp] theorem advancePc_r4 (s : State) : (advancePc s).r4 = s.r4 := rfl
@[simp] theorem advancePc_fl (s : State) : (advancePc s).fl = s.fl := rfl
@[simp] theorem advancePc_pc (s : State) : (advancePc s).pc = s.pc + 1#16 := rfl
@[simp] theorem advancePc_mem (s : State) : (advancePc s).mem = s.mem := rfl

@[simp] theorem storeWord_r1 (s : State) (a v : Word) : (storeWord s a v).r1 = s.r1 := rfl
@[simp] theorem storeWord_r2 (s : State) (a v : Word) : (storeWord s a v).r2 = s.r2 := rfl
@[simp] theorem storeWord_r3 (s : State) (a v : Word) : (storeWord s a v).r3 = s.r3 := rfl
@[simp] theorem storeWord_r4 (s : State) (a v : Word) : (storeWord s a v).r4 = s.r4 := rfl
@[simp] theorem storeWord_fl (s : State) (a v : Word) : (storeWord s a v).fl = s.fl := rfl
@[simp] theorem storeWord_pc (s : State) (a v : Word) : (storeWord s a v).pc = s.pc := rfl
@[simp] theorem storeWord_mem (s : State) (a v : Word) : (storeWord s a v).mem = Memory.write s.mem a.toNat v := rfl

@[simp] theorem start_mem (image : Memory) : (State.start image).mem = image := rfl
@[simp] theorem start_pc (image : Memory) : (State.start image).pc = 0x0000#16 := rfl
@[simp] theorem start_fl (image : Memory) : (State.start image).fl = 0x0000#16 := rfl

@[simp] theorem withFetchWord_pc (s : State) (nbits w : Nat) : (s.withFetchWord nbits w).pc = s.pc := rfl

theorem withFetchWord_eq (s : State) (nbits w : Nat) :
    s.withFetchWord nbits w = storeWord s s.pc (BitVec.ofNat 16 (w % 2 ^ nbits)) := rfl

end Sys2Proof.Machine

namespace Sys2Proof.Safety

open Sys2Proof.Machine

@[simp] theorem afterWrite_r1 (s : State) (i : BitVec 3) (v fl : Word) :
    (afterWrite s i v fl).r1 = if i = 1#3 then v else s.r1 := rfl
@[simp] theorem afterWrite_r2 (s : State) (i : BitVec 3) (v fl : Word) :
    (afterWrite s i v fl).r2 = if i = 2#3 then v else s.r2 := rfl
@[simp] theorem afterWrite_r3 (s : State) (i : BitVec 3) (v fl : Word) :
    (afterWrite s i v fl).r3 = if i = 3#3 then v else s.r3 := rfl
@[simp] theorem afterWrite_r4 (s : State) (i : BitVec 3) (v fl : Word) :
    (afterWrite s i v fl).r4 = if i = 4#3 then v else s.r4 := rfl
@[simp] theorem afterWrite_fl (s : State) (i : BitVec 3) (v fl : Word) : (afterWrite s i v fl).fl = fl := rfl
@[simp] theorem afterWrite_pc (s : State) (i : BitVec 3) (v fl : Word) :
    (afterWrite s i v fl).pc = if i = 7#3 then v else s.pc + 1#16 := rfl
@[simp] theorem afterWrite_mem (s : State) (i : BitVec 3) (v fl : Word) : (afterWrite s i v fl).mem = s.mem := rfl

end Sys2Proof.Safety
end

