-- ==== Sys2Proof/Laws/Encoding.lean ====
section
/-!
SUPPORT. The fields of an encoded word: what the decoder reads of a word the encoder wrote. Each lemma is tagged simp, so that
a claim about decode and encode never opens the concatenation.
-/
namespace Sys2Proof

/-- The register table read back: every register's code names it. -/
@[simp] theorem Reg.ofCode_code (r : Reg) : Reg.ofCode r.code = some r := by
  cases r <;> rfl

/-- A code that names a register is that register's code. -/
theorem Reg.code_of_ofCode {c : BitVec 3} {r : Reg} (h : Reg.ofCode c = some r) : r.code = c := by
  have all : ∀ c : BitVec 3, ∀ r ∈ Reg.ofCode c, r.code = c := by decide
  exact all c r h

@[simp] theorem opField_encodeI (op : BitVec 4) (z : Bool) (rd : BitVec 3) (n : Imm8) : opField (encodeI op z rd n) = op := by
  apply BitVec.eq_of_getLsbD_eq
  intro j hj
  simp only [opField, encodeI, BitVec.getLsbD_extractLsb', BitVec.getLsbD_append]
  interval_cases j <;> simp

@[simp] theorem rdField_encodeI (op : BitVec 4) (z : Bool) (rd : BitVec 3) (n : Imm8) : rdField (encodeI op z rd n) = rd := by
  apply BitVec.eq_of_getLsbD_eq
  intro j hj
  simp only [rdField, encodeI, BitVec.getLsbD_extractLsb', BitVec.getLsbD_append]
  interval_cases j <;> simp

@[simp] theorem imm8Field_encodeI (op : BitVec 4) (z : Bool) (rd : BitVec 3) (n : Imm8) : imm8Field (encodeI op z rd n) = n := by
  apply BitVec.eq_of_getLsbD_eq
  intro j hj
  simp only [imm8Field, encodeI, BitVec.getLsbD_extractLsb', BitVec.getLsbD_append]
  interval_cases j <;> simp

@[simp] theorem opField_encodeR (op : BitVec 4) (z : Bool) (rd ra rb : BitVec 3) : opField (encodeR op z rd ra rb) = op := by
  apply BitVec.eq_of_getLsbD_eq
  intro j hj
  simp only [opField, encodeR, BitVec.getLsbD_extractLsb', BitVec.getLsbD_append]
  interval_cases j <;> simp

@[simp] theorem rdField_encodeR (op : BitVec 4) (z : Bool) (rd ra rb : BitVec 3) : rdField (encodeR op z rd ra rb) = rd := by
  apply BitVec.eq_of_getLsbD_eq
  intro j hj
  simp only [rdField, encodeR, BitVec.getLsbD_extractLsb', BitVec.getLsbD_append]
  interval_cases j <;> simp

@[simp] theorem raField_encodeR (op : BitVec 4) (z : Bool) (rd ra rb : BitVec 3) : raField (encodeR op z rd ra rb) = ra := by
  apply BitVec.eq_of_getLsbD_eq
  intro j hj
  simp only [raField, encodeR, BitVec.getLsbD_extractLsb', BitVec.getLsbD_append]
  interval_cases j <;> simp

@[simp] theorem rbField_encodeR (op : BitVec 4) (z : Bool) (rd ra rb : BitVec 3) : rbField (encodeR op z rd ra rb) = rb := by
  apply BitVec.eq_of_getLsbD_eq
  intro j hj
  simp only [rbField, encodeR, BitVec.getLsbD_extractLsb', BitVec.getLsbD_append]
  interval_cases j <;> simp

@[simp] theorem opField_encodeReserved (op : BitVec 4) (low : BitVec 12) : opField (encodeReserved op low) = op := by
  apply BitVec.eq_of_getLsbD_eq
  intro j hj
  simp only [opField, encodeReserved, BitVec.getLsbD_extractLsb', BitVec.getLsbD_append]
  interval_cases j <;> simp

@[simp] theorem lowField_encodeReserved (op : BitVec 4) (low : BitVec 12) : lowField (encodeReserved op low) = low := by
  apply BitVec.eq_of_getLsbD_eq
  intro j hj
  simp only [lowField, encodeReserved, BitVec.getLsbD_extractLsb', BitVec.getLsbD_append]
  interval_cases j <;> simp

@[simp] theorem zField_encodeI (op : BitVec 4) (z : Bool) (rd : BitVec 3) (n : Imm8) : zField (encodeI op z rd n) = z := by
  simp only [zField, encodeI, BitVec.getLsbD_append]
  simp

@[simp] theorem zField_encodeR (op : BitVec 4) (z : Bool) (rd ra rb : BitVec 3) :
    zField (encodeR op z rd ra rb) = z := by
  simp only [zField, encodeR, BitVec.getLsbD_append]
  simp

/-- The reserved bits of an encoded R-Mode word are zero. -/
@[simp] theorem reservedSet_encodeR (op : BitVec 4) (z : Bool) (rd ra rb : BitVec 3) :
    reservedSet (encodeR op z rd ra rb) = false := by
  simp only [reservedSet, encodeR, BitVec.getLsbD_append]
  simp

end Sys2Proof
end

