-- ==== Sys2Proof/Laws/Decode.lean ====
section
/-!
SUPPORT. The opcode map as sixteen equations: what decode is for a word whose op is known. A claim about the decoder cites
these and opcode_cases instead of unfolding decode.
-/
namespace Sys2Proof

/-- The sixteen values of op (spec/30_encoding.md R60). -/
theorem opcode_cases : ∀ op : BitVec 4,
    op = 0b0000#4 ∨ op = 0b0001#4 ∨ op = 0b0010#4 ∨ op = 0b0011#4 ∨ op = 0b0100#4 ∨ op = 0b0101#4 ∨ op = 0b0110#4 ∨ op = 0b0111#4 ∨
    op = 0b1000#4 ∨ op = 0b1001#4 ∨ op = 0b1010#4 ∨ op = 0b1011#4 ∨ op = 0b1100#4 ∨ op = 0b1101#4 ∨ op = 0b1110#4 ∨ op = 0b1111#4 := by
  decide

theorem decode_movl (w : Word) (h : opField w = 0b0000#4) : decode w = decodeImode .movl w := by
  simp [decode, h]

theorem decode_seth (w : Word) (h : opField w = 0b0001#4) : decode w = decodeImode .seth w := by
  simp [decode, h]

theorem decode_undef0010 (w : Word) (h : opField w = 0b0010#4) : decode w = .ok (.undef0010 (lowField w)) := by
  simp [decode, h]

theorem decode_undef0011 (w : Word) (h : opField w = 0b0011#4) : decode w = .ok (.undef0011 (lowField w)) := by
  simp [decode, h]

theorem decode_str (w : Word) (h : opField w = 0b0100#4) : decode w = decodeStr w := by
  simp [decode, h]

theorem decode_ldr (w : Word) (h : opField w = 0b0101#4) : decode w = decodeLdr w := by
  simp [decode, h]

theorem decode_undef0110 (w : Word) (h : opField w = 0b0110#4) : decode w = .ok (.undef0110 (lowField w)) := by
  simp [decode, h]

theorem decode_undef0111 (w : Word) (h : opField w = 0b0111#4) : decode w = .ok (.undef0111 (lowField w)) := by
  simp [decode, h]

theorem decode_add (w : Word) (h : opField w = 0b1000#4) : decode w = decodeAlu .add w := by
  simp [decode, h]

theorem decode_sub (w : Word) (h : opField w = 0b1001#4) : decode w = decodeAlu .sub w := by
  simp [decode, h]

theorem decode_and (w : Word) (h : opField w = 0b1010#4) : decode w = decodeAlu .and w := by
  simp [decode, h]

theorem decode_orr (w : Word) (h : opField w = 0b1011#4) : decode w = decodeAlu .orr w := by
  simp [decode, h]

theorem decode_undef1100 (w : Word) (h : opField w = 0b1100#4) : decode w = .ok (.undef1100 (lowField w)) := by
  simp [decode, h]

theorem decode_undef1101 (w : Word) (h : opField w = 0b1101#4) : decode w = .ok (.undef1101 (lowField w)) := by
  simp [decode, h]

theorem decode_undef1110 (w : Word) (h : opField w = 0b1110#4) : decode w = .ok (.undef1110 (lowField w)) := by
  simp [decode, h]

theorem decode_undef1111 (w : Word) (h : opField w = 0b1111#4) : decode w = .ok (.undef1111 (lowField w)) := by
  simp [decode, h]

end Sys2Proof
end

