-- ==== Sys2Proof/Laws/Memory.lean ====
section
/-!
SUPPORT. What reading and writing a memory list do: read after write, every other word unchanged, and the canonical form kept.
-/
namespace Sys2Proof.Machine

@[simp] theorem Memory.read_nil (a : Nat) : Memory.read [] a = Config.unlistedWord := rfl

/-- An address below every listed one reads as an unlisted address. -/
theorem Memory.read_below (m : Memory) (a : Nat) (h : ∀ c ∈ m, a < c.1) : Memory.read m a = Config.unlistedWord := by
  induction m with
  | nil => rfl
  | cons c rest ih =>
    have hc : a < c.1 := h c (by simp)
    rw [Memory.read, if_neg (by omega)]
    exact ih fun d hd => h d (by simp [hd])

theorem Memory.wf_tail {c : Cell} {rest : Memory} (h : Memory.wf (c :: rest)) : Memory.wf rest :=
  ⟨(List.pairwise_cons.mp h.1).2, fun d hd => h.2 d (by simp [hd])⟩

theorem Memory.wf_head_lt {c : Cell} {rest : Memory} (h : Memory.wf (c :: rest)) : ∀ d ∈ rest, c.1 < d.1 :=
  (List.pairwise_cons.mp h.1).1

/-- A write leaves every other address alone, whatever the form of the list. -/
theorem Memory.read_write_ne (m : Memory) (a b : Nat) (v : Word) (h : b ≠ a) :
    Memory.read (Memory.write m a v) b = Memory.read m b := by
  induction m with
  | nil =>
    unfold Memory.write
    split <;> simp [Memory.read, h]
  | cons c rest ih =>
    unfold Memory.write
    split_ifs <;> simp_all [Memory.read]

/-- A read after a write to the same address gives the value written. -/
theorem Memory.read_write_same (m : Memory) (a : Nat) (v : Word) (h : m.wf) :
    Memory.read (Memory.write m a v) a = v := by
  induction m with
  | nil =>
    unfold Memory.write
    split <;> simp_all [Memory.read]
  | cons c rest ih =>
    have below : a ≤ c.1 → Memory.read rest a = Config.unlistedWord := fun hle =>
      Memory.read_below rest a fun d hd => lt_of_le_of_lt hle (Memory.wf_head_lt h d hd)
    unfold Memory.write
    split_ifs with h1 h2 h3 h4
    · simp [Memory.read, Nat.ne_of_lt h1, below (Nat.le_of_lt h1), h2]
    · simp [Memory.read]
    · simp [below (Nat.le_of_eq h3), h4]
    · simp [Memory.read]
    · simp [Memory.read, h3, ih (Memory.wf_tail h)]

/-- Every address of a written list is the address written or one listed before. -/
theorem Memory.write_addr (m : Memory) (a : Nat) (v : Word) :
    ∀ c ∈ Memory.write m a v, c.1 = a ∨ ∃ d ∈ m, c.1 = d.1 := by
  induction m with
  | nil =>
    unfold Memory.write
    split <;> simp
  | cons e rest ih =>
    unfold Memory.write
    intro c hc
    split_ifs at hc with h1 h2 h3 h4
    · exact .inr ⟨c, hc, rfl⟩
    · rcases List.mem_cons.mp hc with rfl | hc
      · exact .inl rfl
      · exact .inr ⟨c, hc, rfl⟩
    · exact .inr ⟨c, by simp [hc], rfl⟩
    · rcases List.mem_cons.mp hc with rfl | hc
      · exact .inl rfl
      · exact .inr ⟨c, by simp [hc], rfl⟩
    · rcases List.mem_cons.mp hc with rfl | hc
      · exact .inr ⟨_, by simp, rfl⟩
      · rcases ih c hc with h | ⟨d, hd, h⟩
        · exact .inl h
        · exact .inr ⟨d, by simp [hd], h⟩

/-- A write at an address of the address space keeps the canonical form. -/
theorem Memory.write_wf (m : Memory) (a : Nat) (v : Word) (ha : a < Config.memWords) (h : m.wf) :
    (Memory.write m a v).wf := by
  induction m with
  | nil =>
    unfold Memory.write
    split <;> simp_all [Memory.wf]
  | cons c rest ih =>
    have lt := Memory.wf_head_lt h
    unfold Memory.write
    split_ifs with h1 h2 h3 h4
    · exact h
    · refine ⟨List.pairwise_cons.mpr ⟨?_, h.1⟩, ?_⟩
      · intro d hd
        rcases List.mem_cons.mp hd with rfl | hd
        · exact h1
        · exact lt_trans h1 (lt d hd)
      · intro d hd
        rcases List.mem_cons.mp hd with rfl | hd
        · exact ⟨ha, h2⟩
        · exact h.2 d hd
    · exact Memory.wf_tail h
    · refine ⟨List.pairwise_cons.mpr ⟨fun d hd => by simpa [h3] using lt d hd, (Memory.wf_tail h).1⟩, ?_⟩
      intro d hd
      rcases List.mem_cons.mp hd with rfl | hd
      · exact ⟨ha, h4⟩
      · exact (Memory.wf_tail h).2 d hd
    · have tail := ih (Memory.wf_tail h)
      refine ⟨List.pairwise_cons.mpr ⟨?_, tail.1⟩, ?_⟩
      · intro d hd
        rcases Memory.write_addr rest a v d hd with hda | ⟨e, he, hde⟩
        · simp only [hda]; omega
        · simpa [hde] using lt e he
      · intro d hd
        rcases List.mem_cons.mp hd with rfl | hd
        · exact h.2 _ (by simp)
        · exact tail.2 d hd

/-- storeWord, the one operation on the state that changes memory, keeps the canonical form. -/
theorem storeWord_wf (s : State) (a v : Word) (h : s.mem.wf) : (storeWord s a v).mem.wf :=
  Memory.write_wf s.mem a.toNat v (by simpa [Config.memWords] using a.isLt) h

theorem loadWord_storeWord_same (s : State) (a v : Word) (h : s.mem.wf) : loadWord (storeWord s a v) a = v :=
  Memory.read_write_same s.mem a.toNat v h

theorem loadWord_storeWord_ne (s : State) (a b v : Word) (h : b ≠ a) :
    loadWord (storeWord s a v) b = loadWord s b :=
  Memory.read_write_ne s.mem a.toNat b.toNat v fun e => h (BitVec.eq_of_toNat_eq e)

/-- A load depends on the memory of the state alone. -/
theorem loadWord_of_mem_eq {s t : State} (h : s.mem = t.mem) (a : Word) : loadWord s a = loadWord t a := by
  simp [loadWord, h]

/-- The empty list is canonical. -/
theorem Memory.wf_nil : Memory.wf [] := by simp [Memory.wf]

end Sys2Proof.Machine
end

