-- ==== Sys2Proof/Laws/Operands.lean ====
section
/-!
SUPPORT. What the shared operations answer: register reads and writes, the condition, and an ALU instruction. Each lemma says
all its operation does; later proofs cite it instead of unfolding the operation.
-/
namespace Sys2Proof.Machine

open Sys2Proof.Safety

/-- The machine's register read is the spec's, at the register's code. -/
theorem readReg_eq_x (s : State) (r : Reg) : readReg s r = x s r.code := by
  cases r <;> rfl

/-- Only fl is not writable. -/
theorem writable_iff (r : Reg) : r.writable = true ↔ r ≠ .fl := by
  simp [Reg.writable]

/-- A write to any register but fl goes on, with the register written and the pc advanced unless it is the register. -/
theorem writeResult_next (s : State) (rd : Reg) (v : Word) (h : rd ≠ .fl) :
    writeResult s rd v = .next (afterWrite s rd.code v s.fl) := by
  cases rd <;> first | exact absurd rfl h | rfl

theorem writeResult_fl (s : State) (v : Word) : writeResult s .fl v = .fault (.undefined .writeFl) := rfl

/-- conditionFails in the spec's words: z is 1 and the Z flag, bit 0 of fl, is 0. -/
theorem conditionFails_iff (z : Bool) (s : State) :
    conditionFails z s = true ↔ z = true ∧ s.fl.getLsbD 0 = false := by
  simp [conditionFails, zFlag]

/-- ifExecuted either only advances the pc or has the effect. -/
theorem ifExecuted_eq (z : Bool) (s : State) (effect : Result) :
    ifExecuted z s effect = if z = true ∧ s.fl.getLsbD 0 = false then .next (advancePc s) else effect := by
  simp only [ifExecuted, conditionFails_iff]

theorem ifExecuted_holds (z : Bool) (s : State) (effect : Result) (h : z = true → s.fl.getLsbD 0 = true) :
    ifExecuted z s effect = effect := by
  rw [ifExecuted_eq, if_neg]
  rintro ⟨hz, h0⟩
  rw [h hz] at h0
  cases h0

/-- An instruction that writes fl is undefined before its condition is looked at (R64). -/
theorem writing_fl (z : Bool) (s : State) (effect : Result) :
    writing .fl z s effect = .fault (.undefined .writeFl) := rfl

theorem writing_eq (rd : Reg) (z : Bool) (s : State) (effect : Result) (h : rd ≠ .fl) :
    writing rd z s effect = ifExecuted z s effect := by
  rw [writing, if_pos ((writable_iff rd).mpr h)]

/-- The flag register's word, weight by weight. -/
theorem Flags.toWord_eq (f : Flags) : f.toWord = flagWord f.v f.c f.n f.z := by
  rcases f with ⟨v, c, n, z⟩
  cases v <;> cases c <;> cases n <;> cases z <;> rfl

/-- Bits 15:4 of what the ALU writes to fl are zero (R19). -/
theorem Flags.toWord_upper (f : Flags) : f.toWord.extractLsb' 4 12 = 0#12 := by
  rcases f with ⟨v, c, n, z⟩
  cases v <;> cases c <;> cases n <;> cases z <;> rfl

/-- An ALU instruction with a writable rd: both operands as they were, the flags of the result, and the result in rd. -/
theorem aluInstr_eq (f : Word → Word → AluOut) (z : Bool) (rd ra rb : Reg) (s : State) (h : rd ≠ .fl) :
    aluInstr f z rd ra rb s =
      if z = true ∧ s.fl.getLsbD 0 = false then .next (advancePc s)
      else .next (afterWrite s rd.code (f (x s ra.code) (x s rb.code)).value
        (f (x s ra.code) (x s rb.code)).flags.toWord) := by
  simp only [aluInstr, writing_eq _ _ _ _ h, ifExecuted_eq, writeResult_next _ _ _ h, readReg_eq_x]
  rfl

end Sys2Proof.Machine
end

