-- ==== Sys2Proof/Laws/Exec.lean ====
section
/-!
SUPPORT. All that an instruction can do when it goes on, said once: exec_next. Whole-machine claims follow from it.
-/
namespace Sys2Proof.Machine

open Sys2Proof.Safety

/-- What an executed instruction that writes a register leaves, beside which registers and flags it may write. -/
def WroteRegister (i : Instr) (s t : State) : Prop :=
  ∃ (rd : Reg) (v fl : Word), i.dest = some rd ∧ rd ≠ .fl ∧ t = afterWrite s rd.code v fl ∧
    (i.isAlu = false → fl = s.fl) ∧ (i.isAlu = true → fl.extractLsb' 4 12 = 0#12)

/-- What an executed str leaves. -/
def WroteMemory (i : Instr) (s t : State) : Prop :=
  ∃ (z : Bool) (rd ra : Reg), i = .str z rd ra ∧ t = advancePc (storeWord s (x s ra.code) (x s rd.code))

/-- When exec answers a next state, either the condition failed and only the pc advanced, or the instruction executed and
wrote one register, or it is a str and wrote one word. -/
def ExecNext (i : Instr) (s t : State) : Prop :=
  (i.cond = true ∧ s.fl.getLsbD 0 = false ∧ t = advancePc s) ∨
    ((i.cond = true → s.fl.getLsbD 0 = true) ∧ (WroteRegister i s t ∨ WroteMemory i s t))

/-- The instructions of the shape `writing`, non-ALU ones. -/
theorem writing_next {i : Instr} {s t : State} {rd : Reg} {z : Bool} {v : Word} (hc : i.cond = z)
    (hd : i.dest = some rd) (ha : i.isAlu = false) (h : writing rd z s (writeResult s rd v) = .next t) :
    ExecNext i s t := by
  by_cases hfl : rd = .fl
  · subst hfl; simp [writing_fl] at h
  rw [writing_eq _ _ _ _ hfl, ifExecuted_eq, writeResult_next _ _ _ hfl] at h
  split at h
  · next hz => exact .inl ⟨by rw [hc]; exact hz.1, hz.2, by simpa using h.symm⟩
  · next hz =>
    refine .inr ⟨fun h1 => ?_, .inl ⟨rd, v, s.fl, hd, hfl, by simpa using h.symm, fun _ => rfl, fun h1 => ?_⟩⟩
    · rw [hc] at h1; simpa [h1] using hz
    · simp [ha] at h1

/-- The instructions of the shape `aluInstr`. -/
theorem aluInstr_next {i : Instr} {s t : State} {f : Word → Word → AluOut} {rd ra rb : Reg} {z : Bool} (hc : i.cond = z)
    (hd : i.dest = some rd) (ha : i.isAlu = true) (h : aluInstr f z rd ra rb s = .next t) : ExecNext i s t := by
  by_cases hfl : rd = .fl
  · subst hfl; simp [aluInstr, writing_fl] at h
  rw [aluInstr_eq _ _ _ _ _ _ hfl] at h
  split at h
  · next hz => exact .inl ⟨by rw [hc]; exact hz.1, hz.2, by simpa using h.symm⟩
  · next hz =>
    refine .inr ⟨fun h1 => ?_, .inl ⟨rd, _, _, hd, hfl, by simpa using h.symm, fun h1 => ?_, fun _ => Flags.toWord_upper _⟩⟩
    · rw [hc] at h1; simpa [h1] using hz
    · simp [ha] at h1

theorem execStr_next {s t : State} {z : Bool} {rd ra : Reg} (h : execStr z rd ra s = .next t) :
    ExecNext (.str z rd ra) s t := by
  rw [execStr, ifExecuted_eq, readReg_eq_x, readReg_eq_x] at h
  split at h
  · next hz => exact .inl ⟨hz.1, hz.2, by simpa using h.symm⟩
  · next hz =>
    refine .inr ⟨fun h1 => ?_, .inr ⟨z, rd, ra, rfl, by simpa using h.symm⟩⟩
    simp only [Instr.cond] at h1
    simpa [h1] using hz

/-- The inversion lemma of exec. -/
theorem exec_next {i : Instr} {s t : State} (h : exec i s = .next t) : ExecNext i s t := by
  cases i with
  | movl z rd imm8 => exact writing_next rfl rfl rfl h
  | seth z rd imm8 => exact writing_next rfl rfl rfl h
  | str z rd ra => exact execStr_next h
  | ldr z rd ra => exact writing_next rfl rfl rfl h
  | add z rd ra rb => exact aluInstr_next rfl rfl rfl h
  | sub z rd ra rb => exact aluInstr_next rfl rfl rfl h
  | and z rd ra rb => exact aluInstr_next rfl rfl rfl h
  | orr z rd ra rb => exact aluInstr_next rfl rfl rfl h
  | undef0010 low => simp [exec, execUndef0010, raiseUndefined] at h
  | undef0011 low => simp [exec, execUndef0011, raiseUndefined] at h
  | undef0110 low => simp [exec, execUndef0110, raiseUndefined] at h
  | undef0111 low => simp [exec, execUndef0111, raiseUndefined] at h
  | undef1100 low => simp [exec, execUndef1100, raiseUndefined] at h
  | undef1101 low => simp [exec, execUndef1101, raiseUndefined] at h
  | undef1110 low => simp [exec, execUndef1110, raiseUndefined] at h
  | undef1111 low => simp [exec, execUndef1111, raiseUndefined] at h
  | mov z rd ra => exact aluInstr_next rfl rfl rfl h
  | jpr z ra => exact aluInstr_next rfl rfl rfl h
  | cmp z ra rb => exact aluInstr_next rfl rfl rfl h
  | nop => exact writing_next (v := BitVec.setWidth 16 0x00#8) rfl rfl rfl h
  | jpm z ra => exact writing_next rfl rfl rfl h
  | jp z imm8 => exact writing_next rfl rfl rfl h
  | jpLabel z target =>
    simp only [exec, execJpLabel] at h
    split at h
    · exact writing_next rfl rfl rfl h
    · cases h

end Sys2Proof.Machine
end

