-- ==== Sys2Proof/Laws/PerInstr.lean ====
section
/-!
SUPPORT. A statement about every instruction as syntax, one lemma per constructor: the word it encodes to matches its row of
spec/opcode_table.json (the mask and match columns of spec/30_encoding.md R60 and of the pseudo rows, at the row's operands).
-/
namespace Sys2Proof.Laws.RowPattern

/-- mask and match of the instruction's row in spec/opcode_table.json (a label's row has none: jp's, whose one-word form it
takes, R126). -/
def row : Instr → Word × Word
  | .movl _ _ _ => (0xF000#16, 0x0000#16)
  | .seth _ _ _ => (0xF000#16, 0x1000#16)
  | .str _ _ _ => (0xF08F#16, 0x4000#16)
  | .ldr _ _ _ => (0xF08F#16, 0x5000#16)
  | .add _ _ _ _ => (0xF088#16, 0x8000#16)
  | .sub _ _ _ _ => (0xF088#16, 0x9000#16)
  | .and _ _ _ _ => (0xF088#16, 0xA000#16)
  | .orr _ _ _ _ => (0xF088#16, 0xB000#16)
  | .undef0010 _ => (0xF000#16, 0x2000#16)
  | .undef0011 _ => (0xF000#16, 0x3000#16)
  | .undef0110 _ => (0xF000#16, 0x6000#16)
  | .undef0111 _ => (0xF000#16, 0x7000#16)
  | .undef1100 _ => (0xF000#16, 0xC000#16)
  | .undef1101 _ => (0xF000#16, 0xD000#16)
  | .undef1110 _ => (0xF000#16, 0xE000#16)
  | .undef1111 _ => (0xF000#16, 0xF000#16)
  | .mov _ _ _ => (0xF08F#16, 0x8000#16)
  | .jpr _ _ => (0xF78F#16, 0x8700#16)
  | .cmp _ _ _ => (0xF788#16, 0x9000#16)
  | .nop => (0xFFFF#16, 0x0000#16)
  | .jpm _ _ => (0xF78F#16, 0x5700#16)
  | .jp _ _ => (0xF700#16, 0x0700#16)
  | .jpLabel _ _ => (0xF700#16, 0x0700#16)

/-- The instruction's word has the row's fixed bits. -/
def Statement (i : Instr) : Prop := encode i &&& (row i).1 = (row i).2

/-- The fixed bits of an I-Mode word: op. -/
theorem encodeI_op (op : BitVec 4) (z : Bool) (rd : BitVec 3) (n : Imm8) :
    encodeI op z rd n &&& 0xF000#16 = encodeI op false 0#3 0#8 := by
  apply BitVec.eq_of_getLsbD_eq
  intro j hj
  rw [BitVec.getLsbD_and]
  unfold encodeI
  simp only [BitVec.getLsbD_append]
  interval_cases j <;> simp

/-- The fixed bits of an I-Mode word with a fixed rd: op and rd. -/
theorem encodeI_op_rd (op : BitVec 4) (z : Bool) (rd : BitVec 3) (n : Imm8) :
    encodeI op z rd n &&& 0xF700#16 = encodeI op false rd 0#8 := by
  apply BitVec.eq_of_getLsbD_eq
  intro j hj
  rw [BitVec.getLsbD_and]
  unfold encodeI
  simp only [BitVec.getLsbD_append]
  interval_cases j <;> simp

/-- The fixed bits of an R-Mode word: op, bit 7 and bit 3. -/
theorem encodeR_op (op : BitVec 4) (z : Bool) (rd ra rb : BitVec 3) :
    encodeR op z rd ra rb &&& 0xF088#16 = encodeR op false 0#3 0#3 0#3 := by
  apply BitVec.eq_of_getLsbD_eq
  intro j hj
  rw [BitVec.getLsbD_and]
  unfold encodeR
  simp only [BitVec.getLsbD_append]
  interval_cases j <;> simp

/-- The fixed bits of an R-Mode word without a second operand. -/
theorem encodeR_op_rb (op : BitVec 4) (z : Bool) (rd ra rb : BitVec 3) :
    encodeR op z rd ra rb &&& 0xF08F#16 = encodeR op false 0#3 0#3 rb := by
  apply BitVec.eq_of_getLsbD_eq
  intro j hj
  rw [BitVec.getLsbD_and]
  unfold encodeR
  simp only [BitVec.getLsbD_append]
  interval_cases j <;> simp

/-- The fixed bits of an R-Mode word with a fixed rd. -/
theorem encodeR_op_rd (op : BitVec 4) (z : Bool) (rd ra rb : BitVec 3) :
    encodeR op z rd ra rb &&& 0xF788#16 = encodeR op false rd 0#3 0#3 := by
  apply BitVec.eq_of_getLsbD_eq
  intro j hj
  rw [BitVec.getLsbD_and]
  unfold encodeR
  simp only [BitVec.getLsbD_append]
  interval_cases j <;> simp

/-- The fixed bits of an R-Mode word with a fixed rd and no second operand. -/
theorem encodeR_op_rd_rb (op : BitVec 4) (z : Bool) (rd ra rb : BitVec 3) :
    encodeR op z rd ra rb &&& 0xF78F#16 = encodeR op false rd 0#3 rb := by
  apply BitVec.eq_of_getLsbD_eq
  intro j hj
  rw [BitVec.getLsbD_and]
  unfold encodeR
  simp only [BitVec.getLsbD_append]
  interval_cases j <;> simp

/-- The fixed bits of an undefined opcode's word: op. -/
theorem encodeReserved_op (op : BitVec 4) (low : BitVec 12) :
    encodeReserved op low &&& 0xF000#16 = encodeReserved op 0#12 := by
  apply BitVec.eq_of_getLsbD_eq
  intro j hj
  rw [BitVec.getLsbD_and]
  unfold encodeReserved
  simp only [BitVec.getLsbD_append]
  interval_cases j <;> simp

theorem movl (z : Bool) (rd : Reg) (n : Imm8) : Statement (.movl z rd n) := encodeI_op _ z rd.code n
theorem seth (z : Bool) (rd : Reg) (n : Imm8) : Statement (.seth z rd n) := encodeI_op _ z rd.code n
theorem str (z : Bool) (rd ra : Reg) : Statement (.str z rd ra) := encodeR_op_rb _ z rd.code ra.code _
theorem ldr (z : Bool) (rd ra : Reg) : Statement (.ldr z rd ra) := encodeR_op_rb _ z rd.code ra.code _
theorem add (z : Bool) (rd ra rb : Reg) : Statement (.add z rd ra rb) := encodeR_op _ z rd.code ra.code rb.code
theorem sub (z : Bool) (rd ra rb : Reg) : Statement (.sub z rd ra rb) := encodeR_op _ z rd.code ra.code rb.code
theorem and (z : Bool) (rd ra rb : Reg) : Statement (.and z rd ra rb) := encodeR_op _ z rd.code ra.code rb.code
theorem orr (z : Bool) (rd ra rb : Reg) : Statement (.orr z rd ra rb) := encodeR_op _ z rd.code ra.code rb.code
theorem undef0010 (low : BitVec 12) : Statement (.undef0010 low) := encodeReserved_op _ low
theorem undef0011 (low : BitVec 12) : Statement (.undef0011 low) := encodeReserved_op _ low
theorem undef0110 (low : BitVec 12) : Statement (.undef0110 low) := encodeReserved_op _ low
theorem undef0111 (low : BitVec 12) : Statement (.undef0111 low) := encodeReserved_op _ low
theorem undef1100 (low : BitVec 12) : Statement (.undef1100 low) := encodeReserved_op _ low
theorem undef1101 (low : BitVec 12) : Statement (.undef1101 low) := encodeReserved_op _ low
theorem undef1110 (low : BitVec 12) : Statement (.undef1110 low) := encodeReserved_op _ low
theorem undef1111 (low : BitVec 12) : Statement (.undef1111 low) := encodeReserved_op _ low
theorem mov (z : Bool) (rd ra : Reg) : Statement (.mov z rd ra) := encodeR_op_rb _ z rd.code ra.code _
theorem jpr (z : Bool) (ra : Reg) : Statement (.jpr z ra) := encodeR_op_rd_rb _ z _ ra.code _
theorem cmp (z : Bool) (ra rb : Reg) : Statement (.cmp z ra rb) := encodeR_op_rd _ z _ ra.code rb.code
theorem nop : Statement .nop := rfl
theorem jpm (z : Bool) (ra : Reg) : Statement (.jpm z ra) := encodeR_op_rd_rb _ z _ ra.code _
theorem jp (z : Bool) (n : Imm8) : Statement (.jp z n) := encodeI_op_rd _ z _ n
theorem jpLabel (z : Bool) (target : Word) : Statement (.jpLabel z target) := encodeI_op_rd _ z _ _

end Sys2Proof.Laws.RowPattern
end

