-- ==== Sys2Proof/Laws/Run.lean ====
section
/-!
SUPPORT. What a run does with one step of this machine, by the step's outcome.
-/
namespace Sys2Proof

open Sys2Proof.Machine Sys2Proof.Safety

theorem coreRun_next (M : Host.Core) {s t : M.State} (k : Nat) (h : M.step s = .next t) :
    M.run (k + 1) s = M.run k t := by
  simp only [Host.Core.run, h]

theorem coreRun_fault (M : Host.Core) {s : M.State} {r : M.Fault} (k : Nat) (h : M.step s = .fault r) :
    M.run (k + 1) s = .fault r := by
  simp only [Host.Core.run, h]

theorem coreRun_refused (M : Host.Core) {s : M.State} {q : M.Refusal} (k : Nat) (h : M.step s = .refused q) :
    M.run (k + 1) s = .refused q := by
  simp only [Host.Core.run, h]

@[simp] theorem run_zero (s : State) : run 0 s = .next s := rfl

/-- A step that goes on: the rest of the run starts in the next state. -/
theorem run_next {s t : State} (k : Nat) (h : step s = .next t) : run (k + 1) s = run k t := coreRun_next core k h

/-- A step that faults ends the run. -/
theorem run_fault {s : State} {r : Fault} (k : Nat) (h : step s = .fault r) : run (k + 1) s = .fault r :=
  coreRun_fault core k h

/-- A step that is refused ends the run. -/
theorem run_refused {s : State} {q : Refusal} (k : Nat) (h : step s = .refused q) : run (k + 1) s = .refused q :=
  coreRun_refused core k h

/-- A step goes on only by executing the instruction the fetched word decodes to. -/
theorem step_next {s t : State} (h : step s = .next t) : ∃ i, decode (fetchWord s) = .ok i ∧ exec i s = .next t := by
  unfold step at h
  split at h
  · next i hi => exact ⟨i, hi, h⟩
  · cases h

end Sys2Proof
end

