-- ==== Sys2Proof/Tests/Slice0.lean ====
section
/-!
SUPPORT. The model's own tests: an ill-formed term for each check; a word written out from the spec's encoding for every
constructor; one or two steps an instruction, expected values from spec/95_test_vectors.md (the entry is named); and for every
statement with hypotheses a state and operands that meet them.
-/
namespace Sys2Proof.Tests

open Sys2Proof.Machine Sys2Proof.Safety

/-! WellFormed refuses. -/

theorem test_movl_fl_is_ill_formed : (Instr.movl false .fl 1#8).wellFormed = false := by decide
theorem test_seth_fl_is_ill_formed : (Instr.seth true .fl 0#8).wellFormed = false := by decide
theorem test_ldr_fl_is_ill_formed : (Instr.ldr false .fl .r1).wellFormed = false := by decide
theorem test_add_fl_is_ill_formed : (Instr.add false .fl .r1 .r2).wellFormed = false := by decide
theorem test_sub_fl_is_ill_formed : (Instr.sub false .fl .r1 .r2).wellFormed = false := by decide
theorem test_and_fl_is_ill_formed : (Instr.and false .fl .r1 .r2).wellFormed = false := by decide
theorem test_orr_fl_is_ill_formed : (Instr.orr false .fl .r1 .r2).wellFormed = false := by decide
theorem test_mov_fl_is_ill_formed : (Instr.mov false .fl .r1).wellFormed = false := by decide
theorem test_far_label_is_ill_formed : (Instr.jpLabel false 0x0100#16).wellFormed = false := by decide
theorem test_near_label_is_well_formed : (Instr.jpLabel false 0x00FF#16).wellFormed = true := by decide
theorem test_str_fl_is_well_formed : (Instr.str false .fl .r1).wellFormed = true := by decide
theorem test_reserved_is_not_defined : (Instr.undef0010 0#12).defined = false := by decide

/-! Decoding, one word written out from its encoding for every constructor (spec/30_encoding.md R60, spec/43_pseudo.md). -/

/-- op 0000, z 1, rd 011, imm8 00000001 (S1) -/
theorem test_decode_movl : decodeTableWord 16 0b0000101100000001 = some (.movl true .r3 1#8) := by decide
/-- op 0001, z 0, rd 001, imm8 00010010 (V14) -/
theorem test_decode_seth : decodeTableWord 16 0b0001000100010010 = some (.seth false .r1 0x12#8) := by decide
/-- op 0100, z 0, rd 010, ra 100 (V22) -/
theorem test_decode_str : decodeTableWord 16 0b0100001001000000 = some (.str false .r2 .r4) := by decide
/-- op 0101, z 0, rd 001, ra 111 (S4) -/
theorem test_decode_ldr : decodeTableWord 16 0b0101000101110000 = some (.ldr false .r1 .pc) := by decide
/-- op 1000, z 1, rd 001, ra 010, rb 011 (S9) -/
theorem test_decode_add : decodeTableWord 16 0b1000100100100011 = some (.add true .r1 .r2 .r3) := by decide
/-- op 1001, z 0, rd 001, ra 000, rb 010 (V109) -/
theorem test_decode_sub : decodeTableWord 16 0b1001000100000010 = some (.sub false .r1 .rz .r2) := by decide
/-- op 1010, z 0, rd 000, ra 101, rb 100 (V112) -/
theorem test_decode_and : decodeTableWord 16 0b1010000001010100 = some (.and false .rz .fl .r4) := by decide
/-- op 1011, z 1, rd 111, ra 001, rb 010 (V117) -/
theorem test_decode_orr : decodeTableWord 16 0b1011111100010010 = some (.orr true .pc .r1 .r2) := by decide
/-- The eight reserved rows (V124). -/
theorem test_decode_reserved :
    decodeTableWord 16 0x2000 = some (.undef0010 0x000#12) ∧ decodeTableWord 16 0x3FFF = some (.undef0011 0xFFF#12) ∧
    decodeTableWord 16 0x6123 = some (.undef0110 0x123#12) ∧ decodeTableWord 16 0x7000 = some (.undef0111 0x000#12) ∧
    decodeTableWord 16 0xC000 = some (.undef1100 0x000#12) ∧ decodeTableWord 16 0xD000 = some (.undef1101 0x000#12) ∧
    decodeTableWord 16 0xE000 = some (.undef1110 0x000#12) ∧ decodeTableWord 16 0xFFFF = some (.undef1111 0xFFF#12) := by
  decide
/-- The pseudo rows' instances of S8: each word is the pseudo row's, and decodes to the hardware instruction. -/
theorem test_decode_pseudo :
    encode (.mov false .r3 .pc) = 0x8370#16 ∧ decodeTableWord 16 0x8370 = some (.add false .r3 .pc .rz) ∧
    encode (.jpr false .r4) = 0x8740#16 ∧ decodeTableWord 16 0x8740 = some (.add false .pc .r4 .rz) ∧
    encode (.cmp false .r1 .r2) = 0x9012#16 ∧ decodeTableWord 16 0x9012 = some (.sub false .rz .r1 .r2) ∧
    encode .nop = 0x0000#16 ∧ decodeTableWord 16 0x0000 = some (.movl false .rz 0#8) ∧
    encode (.jpm false .r1) = 0x5710#16 ∧ decodeTableWord 16 0x5710 = some (.ldr false .pc .r1) ∧
    encode (.jp true 0x20#8) = 0x0F20#16 ∧ decodeTableWord 16 0x0F20 = some (.movl true .pc 0x20#8) ∧
    encode (.jpLabel false 0x0020#16) = 0x0720#16 := by decide
/-- The spot checks of section 2.7: undefined words next to defined ones. -/
theorem test_decode_spot_checks :
    decodeTableWord 16 0x0800 = some (.movl true .rz 0#8) ∧ decodeTableWord 16 0x47F0 = none ∧
    decodeTableWord 16 0x4770 = some (.str false .pc .pc) ∧ decodeTableWord 16 0x4570 = some (.str false .fl .pc) ∧
    decodeTableWord 16 0x5570 = none ∧ decodeTableWord 16 0xB555 = none ∧
    decodeTableWord 16 0xB055 = some (.orr false .rz .fl .fl) ∧ decodeTableWord 16 0x1FFF = some (.seth true .pc 0xFF#8) ∧
    decodeTableWord 16 0xB777 = some (.orr false .pc .pc .pc) := by decide

/-! One step. -/

/-- A state whose instruction stands at address `a`, with the given r1 to r4 and fl. -/
def at_ (a : Word) (w : Nat) (r1 r2 r3 r4 fl : Word) : State :=
  State.withFetchWord
    { r1 := r1, r2 := r2, r3 := r3, r4 := r4, fl := fl, pc := a, mem := [(0x0006, 0x0008#16), (0x0300, 0xBEEF#16)] } 16 w

/-- One field of the state after one step. -/
def after (f : State → Word) (s : State) : Option Word := (nextState (step s)).map f

/-- V1 -/
theorem test_movl_clears_high_byte :
    after State.r1 (at_ 0x0100 0x0134 0xFFFF 0 0 0 0) = some 0x0034 ∧
    after State.pc (at_ 0x0100 0x0134 0xFFFF 0 0 0 0) = some 0x0101 := by decide
/-- V6, V7 -/
theorem test_movl_pc_jumps_or_falls_through :
    after State.pc (at_ 0x0100 0x0720 0 0 0 0 0) = some 0x0020 ∧
    after State.pc (at_ 0x0100 0x0F20 0 0 0 0 0) = some 0x0101 := by decide
/-- V14, V18 -/
theorem test_seth :
    after State.r1 (at_ 0x0100 0x1112 0x0034 0 0 0 0) = some 0x1234 ∧
    after State.pc (at_ 0x0134 0x1702 0 0 0 0 0) = some 0x0234 := by decide
/-- V23, V24 -/
theorem test_str_pc_and_fl :
    after (loadWord · 0x0200) (at_ 0x0100 0x4710 0x0200 0 0 0 0) = some 0x0100 ∧
    after (loadWord · 0x0200) (at_ 0x0100 0x4510 0x0200 0 0 0 0x000D) = some 0x000D := by decide
/-- V25, V26: a store over its own word, and a store of zero, which leaves the memory canonical. -/
theorem test_str_own_word_and_zero :
    after (loadWord · 0x0100) (at_ 0x0100 0x4170 0xABCD 0 0 0 0) = some 0xABCD ∧
    (nextState (step (at_ 0x0100 0x4010 0x0300 0 0 0 0))).map State.mem =
      some [(0x0006, 0x0008#16), (0x0100, 0x4010#16)] := by decide
/-- V37, V40 -/
theorem test_ldr_same_register_and_pc :
    after State.r1 (at_ 0x0100 0x5110 0x0300 0 0 0 0) = some 0xBEEF ∧
    after State.pc (at_ 0x0001 0x5710 0x0006 0 0 0 0) = some 0x0008 := by decide
/-- V98, V97 -/
theorem test_add :
    after State.fl (at_ 0x0100 0x8111 0x4000 0 0 0 0) = some 0x000A ∧
    after State.pc (at_ 0x0001 0x8772 0 0x0002 0 0 0) = some 0x0003 := by decide
/-- V109, V111 -/
theorem test_sub :
    after State.fl (at_ 0x0100 0x9102 0 0x0001 0 0 0) = some 0x0006 ∧
    after State.r1 (at_ 0x0100 0x9155 0x5555 0 0 0 0x000D) = some 0x0000 := by decide
/-- V113, V114 -/
theorem test_and :
    after State.fl (at_ 0x0100 0xA051 0x0003 0 0 0 0x000C) = some 0x0001 ∧
    after State.r1 (at_ 0x0100 0xA123 0 0xF0F0 0x0FF0 0 0x000F) = some 0x00F0 := by decide
/-- V117, V115 -/
theorem test_orr :
    after State.pc (at_ 0x0100 0xBF12 0x0100 0x0023 0 0 0x0001) = some 0x0123 ∧
    after State.fl (at_ 0x0001 0xB051 0x0004 0 0 0 0x0004) = some 0x0000 := by decide
/-- V101, V102: a failed conditional instruction, and an executed one. -/
theorem test_addz :
    after State.fl (at_ 0x0100 0x8923 0 1 2 0 0x0004) = some 0x0004 ∧
    after State.r1 (at_ 0x0100 0x8923 0 1 2 0 0x0005) = some 0x0003 := by decide
/-- V103, V106: mov r1, fl reads the old flags; jpr pc jumps to itself. -/
theorem test_mov_jpr :
    after State.r1 (at_ 0x0100 0x8150 0 0 0 0 0x000D) = some 0x000D ∧
    after State.pc (at_ 0x8005 0x8770 0 0 0 0 0) = some 0x8005 := by decide
/-- S1: cmp of 3 and 7 borrows. V9: nop at the top of memory wraps the pc. -/
theorem test_cmp_nop :
    after State.fl (at_ 0x0000 0x9012 3 7 0 0 0) = some 0x0006 ∧
    after State.pc (at_ 0xFFFF 0x0000 0 0 0 0 0) = some 0x0000 := by decide
/-- The flag vectors with a carry or an overflow: V52 to V56, V58 for add. -/
theorem test_flags_add :
    (aluAdd 0xFFFF 0x0001).flags.toWord = 0x0005 ∧ (aluAdd 0x7FFF 0x0001).flags.toWord = 0x000A ∧
    (aluAdd 0x8000 0x8000).flags.toWord = 0x000D ∧ (aluAdd 0x8000 0xFFFF).flags.toWord = 0x000C ∧
    (aluAdd 0xFFFF 0xFFFF).flags.toWord = 0x0006 ∧ (aluAdd 0x7FFF 0xFFFF).flags.toWord = 0x0004 := by decide
/-- V67, V70 to V75 for sub. -/
theorem test_flags_sub :
    (aluSub 0x0000 0x0001).flags.toWord = 0x0006 ∧ (aluSub 0x8000 0x0001).flags.toWord = 0x0008 ∧
    (aluSub 0x8000 0x8000).flags.toWord = 0x0001 ∧ (aluSub 0x8000 0xFFFF).flags.toWord = 0x0006 ∧
    (aluSub 0x7FFF 0xFFFF).flags.toWord = 0x000E ∧ (aluSub 0x0000 0x8000).flags.toWord = 0x000E ∧
    (aluSub 0x00FF 0xFF00).flags.toWord = 0x0004 := by decide
/-- V84, V86 for and; V88, V94 for orr. -/
theorem test_flags_logic :
    (aluAnd 0xFFFF 0xFFFF).flags.toWord = 0x0002 ∧ (aluAnd 0x00FF 0xFF00).flags.toWord = 0x0001 ∧
    (aluOrr 0x0000 0x0000).flags.toWord = 0x0001 ∧ (aluOrr 0x00FF 0xFF00).flags.toWord = 0x0002 := by decide
/-- V11, V12, V13, V31, V32, V33, V48, V120, V121, V123, V124: the reason, shielded by no failed condition. -/
theorem test_undefined_reasons :
    faultReason (step (at_ 0x0100 0x0501 0 0 0 0 0)) = some .writeFl ∧
    faultReason (step (at_ 0x0100 0x0601 0 0 0 0 0)) = some .register110 ∧
    faultReason (step (at_ 0x0100 0x0D00 0 0 0 0 0)) = some .writeFl ∧
    faultReason (step (at_ 0x0100 0x4241 0 0 0 0 0)) = some .ldstLowBits ∧
    faultReason (step (at_ 0x0100 0x42C0 0 0 0 0 0)) = some .reservedBit ∧
    faultReason (step (at_ 0x0100 0x4248 0 0 0 0 0)) = some .reservedBit ∧
    faultReason (step (at_ 0x0100 0x5127 0 0 0 0 0)) = some .ldstLowBits ∧
    faultReason (step (at_ 0x0100 0x8126 0 0 0 0 0)) = some .register110 ∧
    faultReason (step (at_ 0x0100 0x8992 0 0 0 0 0)) = some .reservedBit ∧
    faultReason (step (at_ 0x0100 0xFFFF 0 0 0 0 0)) = some .opcode := by decide

/-! Witnesses: for every statement with hypotheses, a state and operands that meet them together. -/

/-- A state with Z set, in canonical form. -/
def zset : State := at_ 0x0100 0x0000 0x0003 0x0007 0x8000 0xFFFF 0x0001
/-- A state with Z clear, in canonical form. -/
def zclear : State := at_ 0xFFFF 0x0000 0x0003 0x0007 0x8000 0xFFFF 0x000E

theorem zset_wf : zset.mem.wf := by decide
theorem zclear_wf : zclear.mem.wf := by decide
theorem zset_holds (z : Bool) : z = true → zset.fl.getLsbD 0 = true := fun _ => by decide
theorem zclear_fails : zclear.fl.getLsbD 0 = false := by decide

theorem witness_EveryRegisterStartsZero : State.start [(0x0000, 0x0704#16)] ≠ State.reset := by decide
theorem witness_StartMeetsInvariant : Memory.wf [(0x0000, 0x0704#16), (0xFFFF, 0x0001#16)] := by decide
theorem witness_DecodeOfEncode :
    (Instr.add true .pc .fl .rz).wellFormed = true ∧ (Instr.add true .pc .fl .rz).isPseudo = false ∧
    (Instr.undef1111 0xFFF#12).wellFormed = true ∧ (Instr.undef1111 0xFFF#12).isPseudo = false := by decide
theorem witness_EncodeOfDecode : decode 0x4570#16 = .ok (.str false .fl .pc) := rfl
theorem witness_PseudoWordsDecodeToHardware : Reg.pc ≠ Reg.fl ∧ (0x00FF#16).toNat ≤ 0xFF := by decide
theorem witness_StepRunsDecodedInstruction :
    decode (loadWord zset zset.pc) = .ok (.movl false .rz 0#8) ∧
    decode (loadWord (at_ 0 0x0501 0 0 0 0 0) (at_ 0 0x0501 0 0 0 0 0).pc) = .error .writeFl := ⟨rfl, rfl⟩
theorem witness_PlacedWordIsRun :
    zclear.mem.wf ∧ decodeTableWord 16 0x8923 = some (.add true .r1 .r2 .r3) := by decide
theorem witness_StepRunsEncodedInstruction :
    (Instr.jpLabel true 0x00FF#16).wellFormed = true ∧
    loadWord (at_ 0xFFFF 0x0FFF 0 0 0 0 0) 0xFFFF = encode (.jpLabel true 0x00FF#16) ∧
    (Instr.str true .fl .pc).wellFormed = true ∧
    loadWord (at_ 0xFFFF 0x4D70 0 0 0 0 0) 0xFFFF = encode (.str true .fl .pc) := by decide
theorem witness_UndefinedOpcodeStops :
    (loadWord (at_ 0 0x2000 0 0 0 0 0) 0).extractLsb' 12 4 ∈
      [0x2#4, 0x3#4, 0x6#4, 0x7#4, 0xC#4, 0xD#4, 0xE#4, 0xF#4] := by decide
theorem witness_ReservedBitStops :
    (loadWord (at_ 0 0x47F0 0 0 0 0 0) 0).extractLsb' 12 4 ∈ [0x4#4, 0x5#4, 0x8#4, 0x9#4, 0xA#4, 0xB#4] ∧
    (loadWord (at_ 0 0x47F0 0 0 0 0 0) 0).getLsbD 7 = true ∧
    (loadWord (at_ 0 0x811A 0 0 0 0 0) 0).extractLsb' 12 4 ∈ [0x4#4, 0x5#4, 0x8#4, 0x9#4, 0xA#4, 0xB#4] ∧
    (loadWord (at_ 0 0x811A 0 0 0 0 0) 0).getLsbD 3 = true := by decide

/-- The word and its op, the hypotheses of every statement about a whole step. -/
def fetches (w : Nat) (op : BitVec 4) : Prop :=
  loadWord (at_ 0xFFFF w 0 0 0 0 0) (at_ 0xFFFF w 0 0 0 0 0).pc = BitVec.ofNat 16 w ∧
    (BitVec.ofNat 16 w : Word).extractLsb' 12 4 = op

/-- One word for each clause: register 110, fl, a failed condition, an executed instruction. -/
theorem witness_MovlStep : fetches 0x06FF 0#4 ∧ fetches 0x0501 0#4 ∧ fetches 0x0F20 0#4 ∧ fetches 0x07FF 0#4 := by
  unfold fetches; decide
theorem witness_SethStep : fetches 0x1E00 1#4 ∧ fetches 0x1500 1#4 ∧ fetches 0x1AFF 1#4 ∧ fetches 0x1702 1#4 := by
  unfold fetches; decide
/-- One word for each clause: a reserved bit, a low bit, register 110, a failed condition, an executed instruction. -/
theorem witness_StrStep :
    (at_ 0xFFFF 0x42C0 0 0 0 0 0).mem.wf ∧ fetches 0x42C0 4#4 ∧ fetches 0x4241 4#4 ∧ fetches 0x4160 4#4 ∧
    fetches 0x4920 4#4 ∧ fetches 0x4770 4#4 := by
  unfold fetches; decide
theorem witness_LdrStep :
    fetches 0x5128 5#4 ∧ fetches 0x5127 5#4 ∧ fetches 0x5160 5#4 ∧ fetches 0x5510 5#4 ∧ fetches 0x5920 5#4 ∧
    fetches 0x5770 5#4 := by
  unfold fetches; decide
theorem witness_AddStep :
    fetches 0x8192 8#4 ∧ fetches 0x8126 8#4 ∧ fetches 0x8512 8#4 ∧ fetches 0x8923 8#4 ∧ fetches 0x8772 8#4 := by
  unfold fetches; decide
theorem witness_SubStep :
    fetches 0x9192 9#4 ∧ fetches 0x9126 9#4 ∧ fetches 0x9512 9#4 ∧ fetches 0x9923 9#4 ∧ fetches 0x9771 9#4 := by
  unfold fetches; decide
theorem witness_AndStep :
    fetches 0xA192 10#4 ∧ fetches 0xA126 10#4 ∧ fetches 0xA512 10#4 ∧ fetches 0xA923 10#4 ∧ fetches 0xA051 10#4 := by
  unfold fetches; decide
theorem witness_OrrStep :
    fetches 0xB192 11#4 ∧ fetches 0xB126 11#4 ∧ fetches 0xB555 11#4 ∧ fetches 0xBF12 11#4 ∧ fetches 0xB777 11#4 := by
  unfold fetches; decide

/-- A destination that is not fl, and Z set: the hypotheses of the completion statements (ImodeInstructionsComplete,
LoadCompletes, AluInstructionsComplete, MovCompletes; without the register JprCompletes, CmpCompletes, JpmCompletes). -/
theorem witness_completes : Reg.pc ≠ Reg.fl ∧ Reg.rz ≠ Reg.fl ∧ (true = true → zset.fl.getLsbD 0 = true) := by decide
theorem witness_StoreCompletes : zset.mem.wf ∧ (true = true → zset.fl.getLsbD 0 = true) := by decide
/-- The failing clauses of JprCompletes, JpCompletes and ConditionSelectsEffectOrAdvance. -/
theorem witness_condition_fails :
    (Instr.jpr true .r1).cond = true ∧ (Instr.jpr true .r1).defined = true ∧ zclear.fl.getLsbD 0 = false := by decide
theorem witness_NopCompletes : loadWord zclear zclear.pc = 0x0000#16 := by decide
/-- The boundary of the label clauses. -/
theorem witness_LabelJumpCompletesInReach :
    (0x00FF#16).toNat ≤ 0xFF ∧ 0xFF < (0x0100#16).toNat ∧ zset.fl.getLsbD 0 = true ∧ zclear.fl.getLsbD 0 = false := by
  decide
theorem witness_ConditionSelectsEffectOrAdvance :
    (Instr.movl true .pc 0x20#8).defined = true ∧ (Instr.movl true .pc 0x20#8).cond = true ∧
    zset.fl.getLsbD 0 = true ∧ zclear.fl.getLsbD 0 = false := by decide
theorem witness_DefinedInstructionsAlwaysComplete :
    (Instr.str true .fl .pc).defined = true ∧ (Instr.jpLabel true 0x00FF#16).defined = true := by decide
/-- A non-ALU instruction that goes on, a failed ALU instruction, and an executed one. -/
theorem witness_OnlyExecutedAluWritesFlags :
    (∃ t, exec (.movl false .r1 1#8) zset = .next t) ∧ (∃ t, exec (.add true .r1 .r2 .r3) zclear = .next t) ∧
    (∃ t, exec (.add true .r1 .r2 .r3) zset = .next t) ∧ (Instr.movl false .r1 1#8).isAlu = false ∧
    (Instr.add true .r1 .r2 .r3).isAlu = true := ⟨⟨_, rfl⟩, ⟨_, rfl⟩, ⟨_, rfl⟩, rfl, rfl⟩
theorem witness_OnlyDestinationChanges :
    (∃ t, exec (.sub false .r1 .r2 .r3) zset = .next t) ∧ (Instr.sub false .r1 .r2 .r3).dest ≠ some .r4 ∧
    (∃ t, exec (.sub true .r1 .r2 .r3) zclear = .next t) := ⟨⟨_, rfl⟩, by decide, ⟨_, rfl⟩⟩
theorem witness_PcAdvancesUnlessWritten :
    (∃ t, exec (.str false .pc .r1) zclear = .next t) ∧ (Instr.str false .pc .r1).dest ≠ some .pc ∧
    zclear.pc = 0xFFFF#16 ∧ (∃ t, exec (.jp true 0x20#8) zclear = .next t) :=
  ⟨⟨_, rfl⟩, by decide, by decide, ⟨_, rfl⟩⟩
theorem witness_OnlyStoreWritesMemory :
    (∃ t, exec (.ldr false .pc .r1) zset = .next t) ∧ (∃ t, exec (.str true .r1 .r2) zclear = .next t) ∧
    (∃ t, exec (.str false .r1 .r2) zset = .next t) ∧ (0x0300#16 : Word) ≠ x zset Reg.r2.code :=
  ⟨⟨_, rfl⟩, ⟨_, rfl⟩, ⟨_, rfl⟩, by decide⟩
theorem witness_StoreChangesNoRegister : ∃ t, exec (.str false .pc .fl) zset = .next t := ⟨_, rfl⟩
theorem witness_ZeroRegisterDiscardsWrites :
    Instr.orr ∈ [Instr.add, Instr.sub, Instr.and, Instr.orr] ∧ Reg.r1 ≠ Reg.fl ∧
    (Instr.ldr true .rz .r1).dest = some .rz ∧ (Instr.ldr true .rz .r1).isAlu = false :=
  ⟨by simp, by decide, rfl, rfl⟩
theorem witness_FlagDestinationStops : (Instr.ldr true .fl .r1).dest = some .fl := rfl
/-- The hypotheses of ZeroAndNegativeDescribeResult, CarryIsUnsignedOverflow and OverflowIsSignedOverflow, one instruction each,
and of SubtractOrdersSigned. -/
theorem witness_flag_statements :
    (true = true → zset.fl.getLsbD 0 = true) ∧ (∃ t, exec (.add true .pc .r3 .r4) zset = .next t) ∧
    (∃ t, exec (.sub true .rz .r3 .r1) zset = .next t) ∧ (∃ t, exec (.and true .r1 .r1 .r2) zset = .next t) ∧
    (∃ t, exec (.orr true .r1 .r1 .fl) zset = .next t) := ⟨by decide, ⟨_, rfl⟩, ⟨_, rfl⟩, ⟨_, rfl⟩, ⟨_, rfl⟩⟩
theorem witness_TwoInstructionsLoadAConstant : Reg.r4 ∈ [Reg.r1, Reg.r2, Reg.r3, Reg.r4] := by decide
theorem witness_StoredWordIsRead : zset.mem.wf ∧ Reg.r4 ∈ [Reg.r1, Reg.r2, Reg.r3, Reg.r4] := ⟨zset_wf, by decide⟩
theorem witness_MemoryIsItsReadings :
    zset.mem.wf ∧ { zset with pc := 0 }.mem.wf ∧ ∀ a : Word, loadWord zset a = loadWord { zset with pc := 0 } a :=
  ⟨zset_wf, zset_wf, fun _ => rfl⟩
/-- A store to the next instruction's address, which the next step then fetches. -/
theorem witness_StoreIsSeenByFetch :
    ∃ t u, (at_ 0x0100 0x4120 0xABCD 0x0101 0 0 0).mem.wf ∧
      exec (.str false .r1 .r2) (at_ 0x0100 0x4120 0xABCD 0x0101 0 0 0) = .next t ∧ u.mem = t.mem ∧
      u.pc = x (at_ 0x0100 0x4120 0xABCD 0x0101 0 0 0) Reg.r2.code ∧ u = t :=
  ⟨_, _, by decide, rfl, rfl, by decide, rfl⟩
theorem witness_StepKeepsInvariant : Inv zclear ∧ ∃ t, step zclear = .next t := ⟨⟨zclear_wf, by decide⟩, ⟨_, rfl⟩⟩
theorem witness_RunKeepsInvariant : Inv zclear ∧ ∃ t, run 1 zclear = .next t := ⟨⟨zclear_wf, by decide⟩, ⟨_, rfl⟩⟩
theorem witness_RunIsSafeIffEveryFetchedWordIsDefined :
    run 1 (at_ 0 0x0501 0 0 0 0 0) = .fault (.undefined .writeFl) ∧ RunsSafely 1 zset := ⟨rfl, ⟨_, rfl⟩⟩
theorem witness_SelfJumpsEndARun :
    (at_ 0x00FF 0x07FF 0 0 0 0 0).pc = (0xFF#8).setWidth 16 ∧
    loadWord (at_ 0x00FF 0x07FF 0 0 0 0 0) 0x00FF = imodeWord 0#4 false 7#3 0xFF#8 ∧
    loadWord (at_ 0x8005 0x8770 0 0 0 0 0) 0x8005 = 0x8770#16 := by decide

end Sys2Proof.Tests
end

section
/-!
PROOFS. The word at the pc and the outcome of a step: the decoder reads every word as R64 says, and an instruction it
answers completes or is a reserved row.
-/
namespace Sys2Proof

/-! Registers by code, and each format's decoder as a chain of R64's tests in R64's order. -/

/-- The register a code names; code 110, which names none (R14), is sent to rz and never asked for. -/
def Reg.named (c : BitVec 3) : Reg := (Reg.ofCode c).getD .rz

theorem Reg.ofCode_eq (c : BitVec 3) : Reg.ofCode c = if c = 6#3 then none else some (Reg.named c) := by
  revert c; decide

theorem Reg.writable_named (c : BitVec 3) : (Reg.named c).writable = decide (c ≠ 5#3) := by
  revert c; decide

theorem decodeImode_eq (mk : Bool → Reg → Imm8 → Instr) (w : Word) :
    decodeImode mk w =
      if rdField w = 6#3 then .error .register110
      else if rdField w = 5#3 then .error .writeFl
      else .ok (mk (zField w) (Reg.named (rdField w)) (imm8Field w)) := by
  unfold decodeImode
  by_cases hd : rdField w = 6#3 <;> simp [Reg.ofCode_eq, Reg.writable_named, hd]

theorem decodeStr_eq (w : Word) :
    decodeStr w =
      if reservedSet w = true then .error .reservedBit
      else if rbField w ≠ 0#3 then .error .ldstLowBits
      else if rdField w = 6#3 ∨ raField w = 6#3 then .error .register110
      else .ok (.str (zField w) (Reg.named (rdField w)) (Reg.named (raField w))) := by
  unfold decodeStr
  by_cases hd : rdField w = 6#3 <;> by_cases ha : raField w = 6#3 <;> simp [Reg.ofCode_eq, hd, ha]

theorem decodeLdr_eq (w : Word) :
    decodeLdr w =
      if reservedSet w = true then .error .reservedBit
      else if rbField w ≠ 0#3 then .error .ldstLowBits
      else if rdField w = 6#3 ∨ raField w = 6#3 then .error .register110
      else if rdField w = 5#3 then .error .writeFl
      else .ok (.ldr (zField w) (Reg.named (rdField w)) (Reg.named (raField w))) := by
  unfold decodeLdr
  by_cases hd : rdField w = 6#3 <;> by_cases ha : raField w = 6#3 <;>
    simp [Reg.ofCode_eq, Reg.writable_named, hd, ha]

theorem decodeAlu_eq (mk : Bool → Reg → Reg → Reg → Instr) (w : Word) :
    decodeAlu mk w =
      if reservedSet w = true then .error .reservedBit
      else if rdField w = 6#3 ∨ raField w = 6#3 ∨ rbField w = 6#3 then .error .register110
      else if rdField w = 5#3 then .error .writeFl
      else .ok (mk (zField w) (Reg.named (rdField w)) (Reg.named (raField w)) (Reg.named (rbField w))) := by
  unfold decodeAlu
  by_cases hd : rdField w = 6#3 <;> by_cases ha : raField w = 6#3 <;> by_cases hb : rbField w = 6#3 <;>
    simp [Reg.ofCode_eq, Reg.writable_named, hd, ha, hb]

/-! R64's reasons, format by format. -/

/-- R64's order of reasons (undefinedReason), in the decoder's names for the fields. -/
theorem undefinedReason_fields (w : Word) :
    undefinedReason w =
      (let imode := opField w = 0x0#4 ∨ opField w = 0x1#4
       let ldst := opField w = 0x4#4 ∨ opField w = 0x5#4
       let alu := opField w = 0x8#4 ∨ opField w = 0x9#4 ∨ opField w = 0xA#4 ∨ opField w = 0xB#4
       if ¬ (imode ∨ ldst ∨ alu) then some .opcode
       else if ¬ imode ∧ reservedSet w = true then some .reservedBit
       else if ldst ∧ rbField w ≠ 0#3 then some .ldstLowBits
       else if rdField w = 6#3 ∨ (¬ imode ∧ raField w = 6#3) ∨ (alu ∧ rbField w = 6#3) then some .register110
       else if opField w ≠ 0x4#4 ∧ rdField w = 5#3 then some .writeFl
       else none) := by
  simp only [undefinedReason, reservedSet, Bool.or_eq_true]
  rfl

theorem undefinedReason_imode {w : Word} (h : opField w = 0b0000#4 ∨ opField w = 0b0001#4) :
    undefinedReason w =
      if rdField w = 6#3 then some .register110 else if rdField w = 5#3 then some .writeFl else none := by
  rcases h with h | h <;> simp [undefinedReason_fields, h]

theorem undefinedReason_str {w : Word} (h : opField w = 0b0100#4) :
    undefinedReason w =
      if reservedSet w = true then some .reservedBit
      else if rbField w ≠ 0#3 then some .ldstLowBits
      else if rdField w = 6#3 ∨ raField w = 6#3 then some .register110
      else none := by
  simp [undefinedReason_fields, h]

theorem undefinedReason_ldr {w : Word} (h : opField w = 0b0101#4) :
    undefinedReason w =
      if reservedSet w = true then some .reservedBit
      else if rbField w ≠ 0#3 then some .ldstLowBits
      else if rdField w = 6#3 ∨ raField w = 6#3 then some .register110
      else if rdField w = 5#3 then some .writeFl
      else none := by
  simp [undefinedReason_fields, h]

theorem undefinedReason_alu {w : Word}
    (h : opField w = 0b1000#4 ∨ opField w = 0b1001#4 ∨ opField w = 0b1010#4 ∨ opField w = 0b1011#4) :
    undefinedReason w =
      if reservedSet w = true then some .reservedBit
      else if rdField w = 6#3 ∨ raField w = 6#3 ∨ rbField w = 6#3 then some .register110
      else if rdField w = 5#3 then some .writeFl
      else none := by
  rcases h with h | h | h | h <;> simp [undefinedReason_fields, h]

theorem undefinedReason_opcode {w : Word}
    (h : opField w ∈ [0x2#4, 0x3#4, 0x6#4, 0x7#4, 0xC#4, 0xD#4, 0xE#4, 0xF#4]) :
    undefinedReason w = some .opcode := by
  have other : ∀ op ∈ [0x2#4, 0x3#4, 0x6#4, 0x7#4, 0xC#4, 0xD#4, 0xE#4, 0xF#4],
      ¬ ((op = 0x0#4 ∨ op = 0x1#4) ∨ (op = 0x4#4 ∨ op = 0x5#4) ∨
        (op = 0x8#4 ∨ op = 0x9#4 ∨ op = 0xA#4 ∨ op = 0xB#4)) := by decide
  exact if_pos (other _ h)

/-! The decoder against R64. -/

/-- What the decoder should answer for a word whose first reason is `reason`: that reason, or a well-formed instruction,
which is a reserved row exactly where the reason is the opcode. -/
def AnswersReason (reason : Option UndefinedReason) : Except UndefinedReason Instr → Prop
  | .ok i => i.wellFormed = true ∧ reason = if i.isReserved then some .opcode else none
  | .error r => reason = some r

theorem answersReason_defined {i : Instr} (hw : i.wellFormed = true) (hr : i.isReserved = false) :
    AnswersReason none (.ok i) := ⟨hw, by simp [hr]⟩

theorem answersReason_reserved {i : Instr} (hw : i.wellFormed = true) (hr : i.isReserved = true) :
    AnswersReason (some .opcode) (.ok i) := ⟨hw, by simp [hr]⟩

theorem decodeImode_answersReason {mk : Bool → Reg → Imm8 → Instr} {w : Word}
    (hop : opField w = 0b0000#4 ∨ opField w = 0b0001#4)
    (hw : ∀ z rd n, (mk z rd n).wellFormed = rd.writable) (hr : ∀ z rd n, (mk z rd n).isReserved = false) :
    AnswersReason (undefinedReason w) (decodeImode mk w) := by
  rw [undefinedReason_imode hop, decodeImode_eq]
  split_ifs with h110 hfl
  · rfl
  · rfl
  · exact answersReason_defined (by simp [hw, Reg.writable_named, hfl]) (hr ..)

theorem decodeStr_answersReason {w : Word} (hop : opField w = 0b0100#4) :
    AnswersReason (undefinedReason w) (decodeStr w) := by
  rw [undefinedReason_str hop, decodeStr_eq]
  split_ifs
  · rfl
  · rfl
  · rfl
  · exact answersReason_defined rfl rfl

theorem decodeLdr_answersReason {w : Word} (hop : opField w = 0b0101#4) :
    AnswersReason (undefinedReason w) (decodeLdr w) := by
  rw [undefinedReason_ldr hop, decodeLdr_eq]
  split_ifs with hbit hlow h110 hfl
  · rfl
  · rfl
  · rfl
  · rfl
  · exact answersReason_defined (by simp [Instr.wellFormed, Reg.writable_named, hfl]) rfl

theorem decodeAlu_answersReason {mk : Bool → Reg → Reg → Reg → Instr} {w : Word}
    (hop : opField w = 0b1000#4 ∨ opField w = 0b1001#4 ∨ opField w = 0b1010#4 ∨ opField w = 0b1011#4)
    (hw : ∀ z rd ra rb, (mk z rd ra rb).wellFormed = rd.writable)
    (hr : ∀ z rd ra rb, (mk z rd ra rb).isReserved = false) :
    AnswersReason (undefinedReason w) (decodeAlu mk w) := by
  rw [undefinedReason_alu hop, decodeAlu_eq]
  split_ifs with hbit h110 hfl
  · rfl
  · rfl
  · rfl
  · exact answersReason_defined (by simp [hw, Reg.writable_named, hfl]) (hr ..)

/-- A word of an undefined opcode, which decodes to its reserved row. -/
theorem decode_reserved_answersReason {w : Word} {i : Instr} (hd : decode w = .ok i) (hw : i.wellFormed = true)
    (hr : i.isReserved = true) (hop : opField w ∈ [0x2#4, 0x3#4, 0x6#4, 0x7#4, 0xC#4, 0xD#4, 0xE#4, 0xF#4]) :
    AnswersReason (undefinedReason w) (decode w) := by
  rw [undefinedReason_opcode hop, hd]
  exact answersReason_reserved hw hr

/-- The decoder answers every word as R64 says. -/
theorem decode_answersReason (w : Word) : AnswersReason (undefinedReason w) (decode w) := by
  rcases opcode_cases (opField w) with h | h | h | h | h | h | h | h | h | h | h | h | h | h | h | h
  · rw [decode_movl w h]
    exact decodeImode_answersReason (.inl h) (fun _ _ _ => rfl) (fun _ _ _ => rfl)
  · rw [decode_seth w h]
    exact decodeImode_answersReason (.inr h) (fun _ _ _ => rfl) (fun _ _ _ => rfl)
  · exact decode_reserved_answersReason (decode_undef0010 w h) rfl rfl (by simp [h])
  · exact decode_reserved_answersReason (decode_undef0011 w h) rfl rfl (by simp [h])
  · rw [decode_str w h]
    exact decodeStr_answersReason h
  · rw [decode_ldr w h]
    exact decodeLdr_answersReason h
  · exact decode_reserved_answersReason (decode_undef0110 w h) rfl rfl (by simp [h])
  · exact decode_reserved_answersReason (decode_undef0111 w h) rfl rfl (by simp [h])
  · rw [decode_add w h]
    exact decodeAlu_answersReason (.inl h) (fun _ _ _ _ => rfl) (fun _ _ _ _ => rfl)
  · rw [decode_sub w h]
    exact decodeAlu_answersReason (.inr (.inl h)) (fun _ _ _ _ => rfl) (fun _ _ _ _ => rfl)
  · rw [decode_and w h]
    exact decodeAlu_answersReason (.inr (.inr (.inl h))) (fun _ _ _ _ => rfl) (fun _ _ _ _ => rfl)
  · rw [decode_orr w h]
    exact decodeAlu_answersReason (.inr (.inr (.inr h))) (fun _ _ _ _ => rfl) (fun _ _ _ _ => rfl)
  · exact decode_reserved_answersReason (decode_undef1100 w h) rfl rfl (by simp [h])
  · exact decode_reserved_answersReason (decode_undef1101 w h) rfl rfl (by simp [h])
  · exact decode_reserved_answersReason (decode_undef1110 w h) rfl rfl (by simp [h])
  · exact decode_reserved_answersReason (decode_undef1111 w h) rfl rfl (by simp [h])

end Sys2Proof

namespace Sys2Proof.Machine

open Sys2Proof.Safety

/-! When an instruction goes on. -/

/-- An instruction that writes a register other than fl goes on, its condition met or not. `s'` is the state with the
flags the instruction sets. -/
theorem writing_completes {rd : Reg} {z : Bool} {s s' : State} {v : Word} (h : rd.writable = true) :
    ∃ t, writing rd z s (writeResult s' rd v) = .next t := by
  have hfl : rd ≠ .fl := (writable_iff rd).mp h
  rw [writing_eq _ _ _ _ hfl, ifExecuted_eq, writeResult_next _ _ _ hfl]
  split
  · exact ⟨_, rfl⟩
  · exact ⟨_, rfl⟩

theorem execMovl_completes (z : Bool) {rd : Reg} (imm8 : Imm8) (s : State) (h : rd.writable = true) :
    ∃ t, execMovl z rd imm8 s = .next t := writing_completes h

theorem execStr_completes {z : Bool} {rd ra : Reg} {s : State} : ∃ t, execStr z rd ra s = .next t := by
  rw [execStr, ifExecuted_eq]
  split
  · exact ⟨_, rfl⟩
  · exact ⟨_, rfl⟩

/-- A well-formed instruction of no undefined opcode goes on in every state. -/
theorem exec_completes {i : Instr} (s : State) (hw : i.wellFormed = true) (hr : i.isReserved = false) :
    ∃ t, exec i s = .next t := by
  cases i with
  | movl | seth | ldr | add | sub | and | orr | mov => exact writing_completes hw
  | str => exact execStr_completes
  | undef0010 | undef0011 | undef0110 | undef0111 | undef1100 | undef1101 | undef1110 | undef1111 => cases hr
  | jpr | jpm => exact writing_completes (rd := .pc) rfl
  | jp z imm8 => exact execMovl_completes z (rd := .pc) imm8 s rfl
  | cmp => exact writing_completes (rd := .rz) rfl
  | nop => exact execMovl_completes false (rd := .rz) 0x00#8 s rfl
  | jpLabel z target =>
    simp only [exec, execJpLabel, if_pos (of_decide_eq_true hw)]
    exact execMovl_completes z (rd := .pc) _ s rfl

/-- A reserved row is Undefined(opcode) in every state (R62). -/
theorem exec_reserved {i : Instr} (s : State) (hr : i.isReserved = true) :
    exec i s = .fault (.undefined .opcode) := by
  cases i with
  | undef0010 | undef0011 | undef0110 | undef0111 | undef1100 | undef1101 | undef1110 | undef1111 => rfl
  | _ => cases hr

/-! The outcome of a step, by the word at the pc. -/

theorem step_of_decode_ok {s : State} {i : Instr} (h : decode (loadWord s s.pc) = .ok i) : step s = exec i s := by
  simp only [step, fetchWord, h]

theorem step_of_decode_error {s : State} {r : UndefinedReason} (h : decode (loadWord s s.pc) = .error r) :
    step s = .fault (.undefined r) := by
  simp only [step, fetchWord, h, raiseUndefined]

/-- A step goes on where R64 gives no reason and stops for R64's first reason where it gives one. -/
theorem step_outcome (s : State) :
    (undefinedReason (loadWord s s.pc) = none ∧ ∃ t, step s = .next t) ∨
    ∃ r, undefinedReason (loadWord s s.pc) = some r ∧ step s = .fault (.undefined r) := by
  have answers := decode_answersReason (loadWord s s.pc)
  cases hd : decode (loadWord s s.pc) with
  | error r =>
    rw [hd] at answers
    exact .inr ⟨r, answers, step_of_decode_error hd⟩
  | ok i =>
    rw [hd] at answers
    obtain ⟨hw, reason⟩ := answers
    rw [reason, step_of_decode_ok hd]
    cases hr : i.isReserved with
    | false => exact .inl ⟨rfl, exec_completes s hw hr⟩
    | true => exact .inr ⟨.opcode, rfl, exec_reserved s hr⟩

/-- Settles O12: the decoder's answer is R64's (`decode_answersReason`), and an instruction it answers completes or is a
reserved row (`step_outcome`). -/
theorem stepStopsForTheFirstReason : Obligations.StepStopsForTheFirstReason := by
  intro s
  obtain ⟨reason, t, next⟩ | ⟨r, reason, fault⟩ := step_outcome s
  · rw [reason, next]
    exact ⟨nofun, rfl⟩
  · rw [reason, fault]
    exact ⟨nofun, rfl⟩

end Sys2Proof.Machine
end

section
/-!
PROOFS. The register state of spec/10_state.md: the invariant of the flags and the memory, the frame of the flags and the pc,
and the destinations rz and fl. What an instruction can do comes from exec_next.
-/
namespace Sys2Proof.Machine

open Sys2Proof.Safety

/-! The invariant. -/

theorem inv_start {image : Memory} (h : image.wf) : Inv (State.start image) :=
  ⟨h, by rw [start_fl]; decide⟩

/-- Whatever an instruction does when it goes on keeps the invariant: flags the ALU writes have bits 15:4 zero, and a
store keeps the memory canonical. -/
theorem ExecNext.inv {i : Instr} {s t : State} (h : ExecNext i s t) (hs : Inv s) : Inv t := by
  obtain ⟨hmem, hfl⟩ := hs
  obtain ⟨-, -, rfl⟩ | ⟨-, ⟨rd, v, fl, -, -, rfl, hkept, hzero⟩ | ⟨z, rd, ra, -, rfl⟩⟩ := h
  · exact ⟨hmem, hfl⟩
  · refine ⟨hmem, ?_⟩
    cases ha : i.isAlu with
    | false => simpa [hkept ha] using hfl
    | true => exact hzero ha
  · exact ⟨storeWord_wf _ _ _ hmem, hfl⟩

/-- Settles O52: a step goes on only by executing an instruction, and that keeps the invariant (`ExecNext.inv`). -/
theorem stepKeepsInvariant : Obligations.StepKeepsInvariant := by
  intro s t hs h
  obtain ⟨i, -, hexec⟩ := step_next h
  exact (exec_next hexec).inv hs

/-- A run of one step more that goes on: its first step goes on, and so does the rest of the run. -/
theorem run_succ_inv {k : Nat} {s t : State} (h : run (k + 1) s = .next t) :
    ∃ u, step s = .next u ∧ run k u = .next t := by
  cases hs : step s with
  | next u => exact ⟨u, rfl, by rw [← run_next k hs, h]⟩
  | fault r => rw [run_fault k hs] at h; cases h
  | refused q => rw [run_refused k hs] at h; cases h

/-- What every step keeps, every run keeps. -/
theorem run_keeps {P : State → Prop} (hstep : ∀ s t, P s → step s = .next t → P t) (k : Nat) :
    ∀ s t, P s → run k s = .next t → P t := by
  induction k with
  | zero =>
    intro s t hs h
    cases h
    exact hs
  | succ k ih =>
    intro s t hs h
    obtain ⟨u, hu, hrun⟩ := run_succ_inv h
    exact ih u t (hstep s u hs hu) hrun

/-- Settles O53: every step keeps the invariant, so every run does (`run_keeps`). -/
theorem runKeepsInvariant : Obligations.RunKeepsInvariant := run_keeps stepKeepsInvariant

/-- Settles O3: the registers of a start state are zero, and reset is the start with nothing listed. -/
theorem startMeetsInvariant : Obligations.StartMeetsInvariant :=
  ⟨inv_start Memory.wf_nil, fun _ => inv_start⟩

/-! The flags and the pc. -/

/-- A word whose bits 15:4 are zero is a value up to 0x000F. -/
theorem toNat_le_of_upper_zero {w : Word} (h : w.extractLsb' 4 12 = 0#12) : w.toNat ≤ 0xF := by
  have hupper := congrArg BitVec.toNat h
  simp only [BitVec.extractLsb'_toNat, Nat.shiftRight_eq_div_pow, BitVec.toNat_ofNat] at hupper
  omega

theorem code_ne_pc {r : Reg} (h : r ≠ .pc) : r.code ≠ 7#3 := by
  revert h; cases r <;> decide

/-- A condition cannot both hold and fail. -/
theorem condition_exclusive {c : Bool} {s : State} (holds : c = true → s.fl.getLsbD 0 = true) :
    ¬ (c = true ∧ s.fl.getLsbD 0 = false) := by
  rintro ⟨hc, hz⟩
  rw [holds hc] at hz
  cases hz

/-- Settles O36, by the cases of `exec_next`: a failed instruction and a str leave fl, and a register write sets it only
for an ALU instruction. -/
theorem onlyExecutedAluWritesFlags : Obligations.OnlyExecutedAluWritesFlags := by
  intro i s t h
  obtain ⟨hc, hz, rfl⟩ | ⟨holds, ⟨rd, v, fl, -, -, rfl, hkept, hzero⟩ | ⟨z, rd, ra, rfl, rfl⟩⟩ := exec_next h
  · exact ⟨fun _ => rfl, fun _ holds => absurd ⟨hc, hz⟩ (condition_exclusive holds)⟩
  · refine ⟨fun unwritten => ?_, fun ha _ => toNat_le_of_upper_zero (hzero ha)⟩
    exact hkept (unwritten.resolve_right (condition_exclusive holds))
  · exact ⟨fun _ => rfl, nofun⟩

/-- Settles O38, by the cases of `exec_next`: each leaves the pc one on, but a register write to pc. -/
theorem pcAdvancesUnlessWritten : Obligations.PcAdvancesUnlessWritten := by
  intro i s t h unwritten
  suffices next : t.pc = s.pc + 1#16 by rw [next, BitVec.toNat_add]; rfl
  obtain ⟨-, -, rfl⟩ | ⟨holds, ⟨rd, v, fl, hd, -, rfl, -, -⟩ | ⟨z, rd, ra, -, rfl⟩⟩ := exec_next h
  · rfl
  · have hpc : rd ≠ .pc := fun e => unwritten.resolve_right (condition_exclusive holds) (e ▸ hd)
    rw [afterWrite_pc, if_neg (code_ne_pc hpc)]
  · rfl

/-! The destinations rz and fl. -/

/-- A write to rz changes no register (R12). -/
theorem afterWrite_rz (s : State) (v fl : Word) :
    afterWrite s Reg.rz.code v fl = { s with pc := s.pc + 1#16, fl := fl } := rfl

/-- An instruction outside the ALU that writes rz only advances the pc, its condition met or not. -/
theorem writing_rz (z : Bool) (s : State) (v : Word) :
    writing .rz z s (writeResult s .rz v) = .next (advancePc s) := by
  rw [writing_eq .rz z s _ (by decide), ifExecuted_eq]
  exact ite_self _

/-- add, sub, and, orr have the one shape `aluInstr`, each with its own ALU function. -/
theorem exec_alu {mk : Bool → Reg → Reg → Reg → Instr} (h : mk ∈ [Instr.add, Instr.sub, Instr.and, Instr.orr]) :
    ∃ f : Word → Word → AluOut, ∀ z rd ra rb s, exec (mk z rd ra rb) s = aluInstr f z rd ra rb s := by
  simp only [List.mem_cons, List.not_mem_nil, or_false] at h
  obtain rfl | rfl | rfl | rfl := h
  · exact ⟨aluAdd, fun _ _ _ _ _ => rfl⟩
  · exact ⟨aluSub, fun _ _ _ _ _ => rfl⟩
  · exact ⟨aluAnd, fun _ _ _ _ _ => rfl⟩
  · exact ⟨aluOrr, fun _ _ _ _ _ => rfl⟩

/-- An ALU instruction whose condition holds: the result in rd, its flags in fl. -/
theorem aluInstr_executed (f : Word → Word → AluOut) {z : Bool} {rd : Reg} (ra rb : Reg) {s : State} (hfl : rd ≠ .fl)
    (holds : z = true → s.fl.getLsbD 0 = true) :
    aluInstr f z rd ra rb s = .next (afterWrite s rd.code (f (x s ra.code) (x s rb.code)).value
      (f (x s ra.code) (x s rb.code)).flags.toWord) := by
  rw [aluInstr_eq f z rd ra rb s hfl, if_neg (condition_exclusive holds)]

/-- An instruction outside the ALU with rd = rz is a nop (R12). -/
theorem exec_rz {i : Instr} (s : State) (hd : i.dest = some .rz) (ha : i.isAlu = false) :
    exec i s = .next (advancePc s) := by
  cases i with
  | movl | seth | ldr =>
    cases hd
    exact writing_rz ..
  | nop => exact writing_rz false s (BitVec.setWidth 16 0x00#8)
  | add | sub | and | orr | mov | cmp => cases ha
  | _ => cases hd

/-- Settles O41: flags come from the operands alone (`aluInstr_executed`), and a write to rz is discarded
(`afterWrite_rz`, `exec_rz`). -/
theorem zeroRegisterDiscardsWrites : Obligations.ZeroRegisterDiscardsWrites := by
  refine ⟨fun _ => rfl, fun mk z rd ra rb s hmk holds hfl => ?_, fun i s => exec_rz s⟩
  obtain ⟨f, hf⟩ := exec_alu hmk
  refine ⟨_, (hf ..).trans (aluInstr_executed f ra rb hfl holds), ?_⟩
  rw [hf, aluInstr_executed f ra rb (by decide) holds, afterWrite_rz, afterWrite_fl]

/-- A destination fl is undefined before the condition is looked at (R18, R64). -/
theorem exec_fl {i : Instr} (s : State) (hd : i.dest = some .fl) : exec i s = .fault (.undefined .writeFl) := by
  cases i with
  | movl | seth | ldr | add | sub | and | orr | mov =>
    cases hd
    rfl
  | _ => cases hd

/-- Settles O42: no instruction writes fl (`exec_fl`), and str, which reads its rd, always goes on. -/
theorem flagDestinationStops : Obligations.FlagDestinationStops :=
  ⟨fun _ => exec_fl, fun _ _ _ => execStr_completes⟩

/-! The register table. -/

/-- Settles O47: each code of R11 is its register's (`Reg.ofCode_code`), 110 names none; a read is zero or a
field of the state. -/
theorem registerCodeTable : Obligations.RegisterCodeTable :=
  ⟨Reg.ofCode_code .rz, Reg.ofCode_code .r1, Reg.ofCode_code .r2, Reg.ofCode_code .r3, Reg.ofCode_code .r4,
    Reg.ofCode_code .fl, rfl, Reg.ofCode_code .pc, fun _ => ⟨rfl, rfl, rfl, rfl, rfl, rfl, rfl⟩⟩

end Sys2Proof.Machine
end

section
/-!
PROOFS. The memory of spec/20_memory.md: a canonical memory is the function it reads as, a store sets one whole word, and the
two memory instructions copy all 16 bits.
-/
namespace Sys2Proof.Machine

open Sys2Proof.Safety

/-! A canonical memory as a function. -/

/-- An address that reads as something else than an unlisted one is listed, with that word. -/
theorem Memory.mem_of_read {m : Memory} {a : Nat} (h : Memory.read m a ≠ Config.unlistedWord) :
    (a, Memory.read m a) ∈ m := by
  induction m with
  | nil => exact absurd rfl h
  | cons c rest ih =>
    unfold Memory.read at h ⊢
    split_ifs at h ⊢ with ha
    · exact ha ▸ List.mem_cons_self
    · exact List.mem_cons_of_mem c (ih h)

/-- A listed address reads as the word listed with it. -/
theorem Memory.read_of_mem {m : Memory} {c : Cell} (h : m.wf) (hc : c ∈ m) : Memory.read m c.1 = c.2 := by
  induction m with
  | nil => cases hc
  | cons d rest ih =>
    rcases List.mem_cons.mp hc with rfl | hrest
    · exact if_pos rfl
    · have lt : d.1 < c.1 := Memory.wf_head_lt h c hrest
      exact (if_neg (Nat.ne_of_gt lt)).trans (ih (Memory.wf_tail h) hrest)

/-- What a canonical memory lists: the words that differ from an unlisted one, as they are read. -/
theorem Memory.mem_iff_read {m : Memory} (h : m.wf) (c : Cell) :
    c ∈ m ↔ c.1 < Config.memWords ∧ c.2 ≠ Config.unlistedWord ∧ Memory.read m c.1 = c.2 := by
  constructor
  · intro hc
    obtain ⟨inSpace, differs⟩ := h.2 c hc
    exact ⟨inSpace, differs, Memory.read_of_mem h hc⟩
  · rintro ⟨-, differs, hread⟩
    have listed := Memory.mem_of_read (hread ▸ differs)
    rwa [hread] at listed

/-- Canonical memories that read alike in the address space list the same words by rising address. -/
theorem Memory.eq_of_read_eq {m n : Memory} (hm : m.wf) (hn : n.wf)
    (h : ∀ a < Config.memWords, Memory.read m a = Memory.read n a) : m = n := by
  refine hm.1.eq_of_mem_iff hn.1 fun c => ?_
  rw [Memory.mem_iff_read hm, Memory.mem_iff_read hn]
  exact and_congr_right fun inSpace => by rw [h c.1 inSpace]

/-- Settles O50: a canonical memory is determined by what it reads as (`Memory.eq_of_read_eq`), and every address of the
address space is a word's value. -/
theorem memoryIsItsReadings : Obligations.MemoryIsItsReadings := fun _ _ hs ht h =>
  Memory.eq_of_read_eq hs ht fun a ha => h (BitVec.ofNatLT a ha)

/-! The memory instructions. -/

/-- R36: a store sets the word at its address, and every other word reads as before. -/
theorem loadWord_storeWord {s : State} (h : s.mem.wf) (a v b : Word) :
    loadWord (storeWord s a v) b = if b = a then v else loadWord s b := by
  split_ifs with hb
  · rw [hb, loadWord_storeWord_same s a v h]
  · exact loadWord_storeWord_ne s a b v hb

/-- The advance of the pc leaves memory as it is. -/
@[simp] theorem loadWord_advancePc (s : State) (a : Word) : loadWord (advancePc s) a = loadWord s a := rfl

/-- R90: a str whose condition holds. -/
theorem exec_str_executed {z : Bool} (rd ra : Reg) {s : State} (holds : z = true → s.fl.getLsbD 0 = true) :
    exec (.str z rd ra) s = .next (advancePc (storeWord s (x s ra.code) (x s rd.code))) := by
  rw [exec, execStr, ifExecuted_holds _ _ _ holds, readReg_eq_x, readReg_eq_x]

/-- R91: an ldr whose condition holds. -/
theorem exec_ldr_executed {z : Bool} {rd : Reg} (ra : Reg) {s : State} (hfl : rd ≠ .fl)
    (holds : z = true → s.fl.getLsbD 0 = true) :
    exec (.ldr z rd ra) s = .next (afterWrite s rd.code (loadWord s (x s ra.code)) s.fl) := by
  rw [exec, execLdr, writing_eq _ _ _ _ hfl, ifExecuted_holds _ _ _ holds, writeResult_next _ _ _ hfl, readReg_eq_x]

/-- A general register holds the value written to it. -/
theorem readReg_afterWrite_same {rd : Reg} (h : rd ∈ [Reg.r1, Reg.r2, Reg.r3, Reg.r4]) (s : State) (v fl : Word) :
    readReg (afterWrite s rd.code v fl) rd = v := by
  simp only [List.mem_cons, List.not_mem_nil, or_false] at h
  obtain rfl | rfl | rfl | rfl := h <;> rfl

/-- Settles O49: a write by the read-after-write law (`loadWord_storeWord`), ldr and str by what they leave when
executed. -/
theorem storedWordIsRead : Obligations.StoredWordIsRead := by
  intro s hwf
  refine ⟨loadWord_storeWord hwf, fun rd ra hrd => ?_, fun rd ra => ?_⟩
  · have hfl : rd ≠ .fl := ne_of_mem_of_not_mem hrd (by decide)
    exact ⟨_, exec_ldr_executed ra hfl nofun, readReg_afterWrite_same hrd s _ _, afterWrite_mem s _ _ _⟩
  · refine ⟨_, exec_str_executed rd ra nofun, ?_⟩
    rw [loadWord_advancePc, loadWord_storeWord_same s _ _ hwf]

/-- Settles O51: a fetch is a load at the pc, so it reads the word that str left at its address. -/
theorem storeIsSeenByFetch : Obligations.StoreIsSeenByFetch := by
  intro z rd ra s t u hwf holds h hmem hpc
  rw [exec_str_executed rd ra holds] at h
  obtain rfl := Host.Outcome.next.inj h
  refine ⟨rfl, ?_⟩
  rw [fetchWord, hpc, loadWord_of_mem_eq hmem, loadWord_advancePc, loadWord_storeWord_same s _ _ hwf]

/-! The frame of memory. -/

/-- R33: an instruction that goes on leaves memory, or it is an executed str. -/
theorem ExecNext.mem_eq {i : Instr} {s t : State} (h : ExecNext i s t)
    (unstored : i.isStore = false ∨ (i.cond = true ∧ s.fl.getLsbD 0 = false)) : t.mem = s.mem := by
  obtain ⟨-, -, rfl⟩ | ⟨holds, ⟨rd, v, fl, -, -, rfl, -, -⟩ | ⟨z, rd, ra, rfl, -⟩⟩ := h
  · rfl
  · rfl
  · exact absurd (unstored.resolve_left nofun) (condition_exclusive holds)

/-- A str, executed or not, leaves every word but the one at x[ra]. -/
theorem loadWord_of_exec_str {z : Bool} {rd ra : Reg} {s t : State} (h : exec (.str z rd ra) s = .next t) {a : Word}
    (ha : a ≠ x s ra.code) : loadWord t a = loadWord s a := by
  obtain ⟨-, -, rfl⟩ | ⟨-, ⟨_, _, _, hd, -⟩ | ⟨_, _, _, hi, rfl⟩⟩ := exec_next h
  · rfl
  · cases hd
  · cases hi
    rw [loadWord_advancePc, loadWord_storeWord_ne s _ _ _ ha]

/-- Settles O39: without an executed str memory is the same (`ExecNext.mem_eq`), and a str writes at x[ra] alone
(`loadWord_of_exec_str`). -/
theorem onlyStoreWritesMemory : Obligations.OnlyStoreWritesMemory :=
  ⟨fun _ _ _ h unstored => loadWord_of_mem_eq ((exec_next h).mem_eq unstored),
    fun _ _ _ _ _ h _ => loadWord_of_exec_str h⟩

end Sys2Proof.Machine
end

section
/-!
PROOFS. Encoding and decoding are inverse (spec/30_encoding.md R51, R52, R60), format by format and then over all rows, a
pseudo row by the hardware instruction it expands to. From the word at the pc the step follows (R62, R64, R66), and from the
instruction its condition and its frame (R55, R56).
-/
namespace Sys2Proof

/-! Each format's decoder on a word its encoder wrote. -/

theorem decodeImode_encodeI (mk : Bool → Reg → Imm8 → Instr) (op : BitVec 4) (z : Bool) {rd : Reg} (n : Imm8)
    (h : rd.writable = true) : decodeImode mk (encodeI op z rd.code n) = .ok (mk z rd n) := by
  simp [decodeImode, h]

theorem decodeStr_encodeR (op : BitVec 4) (z : Bool) (rd ra : Reg) :
    decodeStr (encodeR op z rd.code ra.code 0#3) = .ok (.str z rd ra) := by
  simp [decodeStr]

theorem decodeLdr_encodeR (op : BitVec 4) (z : Bool) {rd : Reg} (ra : Reg) (h : rd.writable = true) :
    decodeLdr (encodeR op z rd.code ra.code 0#3) = .ok (.ldr z rd ra) := by
  simp [decodeLdr, h]

theorem decodeAlu_encodeR (mk : Bool → Reg → Reg → Reg → Instr) (op : BitVec 4) (z : Bool) {rd : Reg} (ra rb : Reg)
    (h : rd.writable = true) : decodeAlu mk (encodeR op z rd.code ra.code rb.code) = .ok (mk z rd ra rb) := by
  simp [decodeAlu, h]

/-- Settles O5: the opcode map on the op that encode wrote, then the format's decoder on its own encoding. -/
theorem decodeOfEncode : Obligations.DecodeOfEncode := by
  intro i hw hp
  cases i with
  | movl z rd n => exact (decode_movl _ (opField_encodeI ..)).trans (decodeImode_encodeI .movl _ z n hw)
  | seth z rd n => exact (decode_seth _ (opField_encodeI ..)).trans (decodeImode_encodeI .seth _ z n hw)
  | str z rd ra => exact (decode_str _ (opField_encodeR ..)).trans (decodeStr_encodeR _ z rd ra)
  | ldr z rd ra => exact (decode_ldr _ (opField_encodeR ..)).trans (decodeLdr_encodeR _ z ra hw)
  | add z rd ra rb => exact (decode_add _ (opField_encodeR ..)).trans (decodeAlu_encodeR .add _ z ra rb hw)
  | sub z rd ra rb => exact (decode_sub _ (opField_encodeR ..)).trans (decodeAlu_encodeR .sub _ z ra rb hw)
  | and z rd ra rb => exact (decode_and _ (opField_encodeR ..)).trans (decodeAlu_encodeR .and _ z ra rb hw)
  | orr z rd ra rb => exact (decode_orr _ (opField_encodeR ..)).trans (decodeAlu_encodeR .orr _ z ra rb hw)
  | undef0010 | undef0011 | undef0110 | undef0111 | undef1100 | undef1101 | undef1110 | undef1111 =>
    simp [encode, decode_undef0010, decode_undef0011, decode_undef0110, decode_undef0111, decode_undef1100,
      decode_undef1101, decode_undef1110, decode_undef1111]
  | mov | jpr | cmp | nop | jpm | jp | jpLabel => cases hp

/-! A word is the encoding of its own fields. -/

theorem encodeI_fields (w : Word) : encodeI (opField w) (zField w) (rdField w) (imm8Field w) = w := by
  apply BitVec.eq_of_getLsbD_eq
  intro j hj
  simp only [encodeI, opField, zField, rdField, imm8Field, BitVec.getLsbD_append, BitVec.getLsbD_extractLsb']
  interval_cases j <;> simp

/-- The format fixes bits 7 and 3 to zero, so they must be zero in the word. -/
theorem encodeR_fields {w : Word} (h : reservedSet w = false) :
    encodeR (opField w) (zField w) (rdField w) (raField w) (rbField w) = w := by
  obtain ⟨bit7, bit3⟩ := Bool.or_eq_false_iff.mp h
  apply BitVec.eq_of_getLsbD_eq
  intro j hj
  simp only [encodeR, opField, zField, rdField, raField, rbField, BitVec.getLsbD_append, BitVec.getLsbD_extractLsb']
  interval_cases j <;> simp [-BitVec.getLsbD_eq_getElem, bit7, bit3]

theorem encodeReserved_fields (w : Word) : encodeReserved (opField w) (lowField w) = w := by
  apply BitVec.eq_of_getLsbD_eq
  intro j hj
  simp only [encodeReserved, opField, lowField, BitVec.getLsbD_append, BitVec.getLsbD_extractLsb']
  interval_cases j <;> simp

theorem Reg.code_named {c : BitVec 3} (h : c ≠ 6#3) : (Reg.named c).code = c := by
  revert h c; decide

/-! What a format's decoder answers encodes to the word. -/

theorem encode_of_decodeImode {mk : Bool → Reg → Imm8 → Instr} {op : BitVec 4} {w : Word} {i : Instr}
    (enc : ∀ z rd n, encode (mk z rd n) = encodeI op z rd.code n) (hop : opField w = op)
    (h : decodeImode mk w = .ok i) : encode i = w := by
  rw [decodeImode_eq] at h
  split_ifs at h with h110
  cases h
  rw [enc, Reg.code_named h110, ← hop, encodeI_fields]

theorem encode_of_decodeStr {w : Word} {i : Instr} (hop : opField w = 0b0100#4) (h : decodeStr w = .ok i) :
    encode i = w := by
  rw [decodeStr_eq] at h
  split_ifs at h with hbit hlow h110
  cases h
  obtain ⟨hd, ha⟩ := not_or.mp h110
  rw [encode, Reg.code_named hd, Reg.code_named ha, ← hop, ← not_not.mp hlow, encodeR_fields (by simpa using hbit)]

theorem encode_of_decodeLdr {w : Word} {i : Instr} (hop : opField w = 0b0101#4) (h : decodeLdr w = .ok i) :
    encode i = w := by
  rw [decodeLdr_eq] at h
  split_ifs at h with hbit hlow h110
  cases h
  obtain ⟨hd, ha⟩ := not_or.mp h110
  rw [encode, Reg.code_named hd, Reg.code_named ha, ← hop, ← not_not.mp hlow, encodeR_fields (by simpa using hbit)]

theorem encode_of_decodeAlu {mk : Bool → Reg → Reg → Reg → Instr} {op : BitVec 4} {w : Word} {i : Instr}
    (enc : ∀ z rd ra rb, encode (mk z rd ra rb) = encodeR op z rd.code ra.code rb.code) (hop : opField w = op)
    (h : decodeAlu mk w = .ok i) : encode i = w := by
  rw [decodeAlu_eq] at h
  split_ifs at h with hbit h110
  cases h
  obtain ⟨hd, hab⟩ := not_or.mp h110
  obtain ⟨ha, hb⟩ := not_or.mp hab
  rw [enc, Reg.code_named hd, Reg.code_named ha, Reg.code_named hb, ← hop, encodeR_fields (by simpa using hbit)]

theorem encode_of_decode_reserved {mk : BitVec 12 → Instr} {op : BitVec 4} {w : Word} {i : Instr}
    (enc : ∀ low, encode (mk low) = encodeReserved op low) (hop : opField w = op)
    (h : Except.ok (ε := UndefinedReason) (mk (lowField w)) = .ok i) : encode i = w := by
  cases h
  rw [enc, ← hop, encodeReserved_fields]

theorem encode_of_decode {w : Word} {i : Instr} (hd : decode w = .ok i) : encode i = w := by
  rcases opcode_cases (opField w) with h | h | h | h | h | h | h | h | h | h | h | h | h | h | h | h
  · exact encode_of_decodeImode (fun _ _ _ => rfl) h (decode_movl w h ▸ hd)
  · exact encode_of_decodeImode (fun _ _ _ => rfl) h (decode_seth w h ▸ hd)
  · exact encode_of_decode_reserved (fun _ => rfl) h (decode_undef0010 w h ▸ hd)
  · exact encode_of_decode_reserved (fun _ => rfl) h (decode_undef0011 w h ▸ hd)
  · exact encode_of_decodeStr h (decode_str w h ▸ hd)
  · exact encode_of_decodeLdr h (decode_ldr w h ▸ hd)
  · exact encode_of_decode_reserved (fun _ => rfl) h (decode_undef0110 w h ▸ hd)
  · exact encode_of_decode_reserved (fun _ => rfl) h (decode_undef0111 w h ▸ hd)
  · exact encode_of_decodeAlu (fun _ _ _ _ => rfl) h (decode_add w h ▸ hd)
  · exact encode_of_decodeAlu (fun _ _ _ _ => rfl) h (decode_sub w h ▸ hd)
  · exact encode_of_decodeAlu (fun _ _ _ _ => rfl) h (decode_and w h ▸ hd)
  · exact encode_of_decodeAlu (fun _ _ _ _ => rfl) h (decode_orr w h ▸ hd)
  · exact encode_of_decode_reserved (fun _ => rfl) h (decode_undef1100 w h ▸ hd)
  · exact encode_of_decode_reserved (fun _ => rfl) h (decode_undef1101 w h ▸ hd)
  · exact encode_of_decode_reserved (fun _ => rfl) h (decode_undef1110 w h ▸ hd)
  · exact encode_of_decode_reserved (fun _ => rfl) h (decode_undef1111 w h ▸ hd)

/-! Pseudo rows. -/

@[simp] theorem Instr.isPseudo_expand (i : Instr) : i.expand.isPseudo = false := by
  cases i <;> rfl

/-- A pseudo row and its hardware instruction are one word (R60). -/
@[simp] theorem encode_expand (i : Instr) : encode i.expand = encode i := by
  cases i <;> rfl

theorem Instr.wellFormed_expand {i : Instr} (h : i.wellFormed = true) : i.expand.wellFormed = true := by
  cases i with
  | jpr | cmp | nop | jpm | jp | jpLabel => rfl
  | _ => exact h

/-- The word of a well-formed instruction, pseudo row or not, decodes to the hardware instruction it is. -/
theorem decode_encode {i : Instr} (h : i.wellFormed = true) : decode (encode i) = .ok i.expand := by
  rw [← encode_expand]
  exact decodeOfEncode i.expand (Instr.wellFormed_expand h) i.isPseudo_expand

/-- R64, in the words of the decoder: whatever it answers is well formed. -/
theorem wellFormed_of_decode {w : Word} {i : Instr} (hd : decode w = .ok i) : i.wellFormed = true := by
  have answers := decode_answersReason w
  rw [hd] at answers
  exact answers.1

/-- Settles O6: the fields give the word back (`encode_of_decode`). An answer is no pseudo row, because its word decodes
to what the answer expands to, so it is its own expansion. -/
theorem encodeOfDecode : Obligations.EncodeOfDecode := by
  intro w i hd
  have hw := wellFormed_of_decode hd
  have henc := encode_of_decode hd
  have expands : decode w = .ok i.expand := henc ▸ decode_encode hw
  have hexpand : i = i.expand := Except.ok.inj (hd.symm.trans expands)
  exact ⟨henc, hw, hexpand ▸ i.isPseudo_expand⟩

/-- Settles O4: each clause evaluates the decoder on one word. -/
theorem sampleWordsDecode : Obligations.SampleWordsDecode :=
  ⟨rfl, rfl, rfl, rfl, rfl, rfl, rfl, rfl, rfl⟩

/-! R64's Defined and R64's reasons. -/

theorem Instr.defined_iff (i : Instr) : i.defined = true ↔ i.wellFormed = true ∧ i.isReserved = false := by
  simp [Instr.defined]

/-- The opcode groups of R64: I-Mode, str, ldr, ALU, and the undefined opcodes. -/
theorem opcode_groups : ∀ op : BitVec 4,
    (op = 0b0000#4 ∨ op = 0b0001#4) ∨ op = 0b0100#4 ∨ op = 0b0101#4 ∨
    (op = 0b1000#4 ∨ op = 0b1001#4 ∨ op = 0b1010#4 ∨ op = 0b1011#4) ∨
    op ∈ [0x2#4, 0x3#4, 0x6#4, 0x7#4, 0xC#4, 0xD#4, 0xE#4, 0xF#4] := by
  decide

/-- R64's Defined, in the decoder's names for the fields. -/
theorem definedWord_fields (w : Word) :
    definedWord w =
      if opField w = 0b0000#4 ∨ opField w = 0b0001#4 then decide (rdField w ≠ 6#3 ∧ rdField w ≠ 5#3)
      else if opField w = 0b0100#4 then
        !reservedSet w && decide (rbField w = 0#3 ∧ rdField w ≠ 6#3 ∧ raField w ≠ 6#3)
      else if opField w = 0b0101#4 then
        !reservedSet w && decide (rbField w = 0#3 ∧ rdField w ≠ 6#3 ∧ rdField w ≠ 5#3 ∧ raField w ≠ 6#3)
      else if opField w = 0b1000#4 ∨ opField w = 0b1001#4 ∨ opField w = 0b1010#4 ∨ opField w = 0b1011#4 then
        !reservedSet w && decide (rdField w ≠ 6#3 ∧ rdField w ≠ 5#3 ∧ raField w ≠ 6#3 ∧ rbField w ≠ 6#3)
      else false := rfl

/-- A chain of tests ends without a reason where each test fails. -/
theorem ite_some_eq_none {c : Prop} [Decidable c] {r : UndefinedReason} {rest : Option UndefinedReason} :
    (if c then some r else rest) = none ↔ ¬ c ∧ rest = none := by
  split_ifs with hc <;> simp [hc]

/-- R64's Defined holds exactly where R64 gives no reason. -/
theorem definedWord_iff (w : Word) : definedWord w = true ↔ undefinedReason w = none := by
  rw [definedWord_fields]
  rcases opcode_groups (opField w) with himode | hstr | hldr | halu | hundef
  · simp [undefinedReason_imode himode, ite_some_eq_none, himode]
  · simp only [undefinedReason_str hstr, ite_some_eq_none]
    simp [hstr]
  · simp only [undefinedReason_ldr hldr, ite_some_eq_none]
    simp [hldr, and_assoc, and_left_comm, and_comm]
  · simp only [undefinedReason_alu halu, ite_some_eq_none]
    rcases halu with h | h | h | h <;> simp [h, and_assoc, and_left_comm, and_comm]
  · rw [undefinedReason_opcode hundef]
    simp only [List.mem_cons, List.not_mem_nil, or_false] at hundef
    rcases hundef with h | h | h | h | h | h | h | h <;> simp [h]

/-- R61: where a reserved bit of an R-Mode word is set, that is R64's first reason. -/
theorem undefinedReason_reservedBit {w : Word} (hop : opField w ∈ [0x4#4, 0x5#4, 0x8#4, 0x9#4, 0xA#4, 0xB#4])
    (h : reservedSet w = true) : undefinedReason w = some .reservedBit := by
  simp only [List.mem_cons, List.not_mem_nil, or_false] at hop
  obtain hstr | hldr | halu := hop
  · rw [undefinedReason_str hstr, if_pos h]
  · rw [undefinedReason_ldr hldr, if_pos h]
  · rw [undefinedReason_alu halu, if_pos h]

end Sys2Proof

namespace Sys2Proof.Machine

open Sys2Proof.Safety

/-! The step from the word at the pc (R66). -/

/-- Settles O8, by the two outcomes of decoding (`step_of_decode_ok`, `step_of_decode_error`). -/
theorem stepRunsDecodedInstruction : Obligations.StepRunsDecodedInstruction := fun _ =>
  ⟨fun _ => step_of_decode_ok, fun _ => step_of_decode_error⟩

theorem decode_of_decodeTableWord {nbits w : Nat} {i : Instr} (h : decodeTableWord nbits w = some i) :
    decode (BitVec.ofNat 16 (w % 2 ^ nbits)) = .ok i := by
  unfold decodeTableWord at h
  split at h
  · next j hj => rw [hj, Option.some.inj h]
  · cases h

/-- Settles O9: the placed word is what the next step loads (`loadWord_storeWord_same`), and it decodes to i. -/
theorem placedWordIsRun : Obligations.PlacedWordIsRun := by
  intro s w i hwf h
  apply step_of_decode_ok
  rw [withFetchWord_pc, withFetchWord_eq, loadWord_storeWord_same s _ _ hwf]
  exact decode_of_decodeTableWord h

/-- A pseudo row has the meaning of the hardware instruction it is (R120 to R126). -/
theorem exec_expand {i : Instr} (s : State) (h : i.wellFormed = true) : exec i.expand s = exec i s := by
  cases i with
  | jpLabel z target => exact (if_pos (of_decide_eq_true h)).symm
  | _ => rfl

/-- Settles O10: the word decodes to the expansion (`decode_encode`), which means the same (`exec_expand`). -/
theorem stepRunsEncodedInstruction : Obligations.StepRunsEncodedInstruction := by
  intro i s hw hword
  have hd := decode_encode hw
  refine ⟨hd, exec_expand s hw, ?_⟩
  rw [step_of_decode_ok (hword ▸ hd), exec_expand s hw]

/-! The outcome of a step by R64. -/

theorem step_of_undefinedReason {s : State} {r : UndefinedReason}
    (h : undefinedReason (loadWord s s.pc) = some r) : step s = .fault (.undefined r) := by
  obtain ⟨reason, -⟩ | ⟨first, reason, fault⟩ := step_outcome s
  · cases reason.symm.trans h
  · cases reason.symm.trans h
    exact fault

/-- Settles O11: Defined is the absence of a reason (`definedWord_iff`), and a step goes on exactly there
(`step_outcome`). -/
theorem stepGoesOnIffWordDefined : Obligations.StepGoesOnIffWordDefined := by
  intro s
  rw [definedWord_iff]
  obtain ⟨reason, next⟩ | ⟨r, reason, fault⟩ := step_outcome s
  · exact iff_of_true next reason
  · rw [reason, fault]
    exact iff_of_false nofun nofun

/-- Settles O13: the rows by `exec_reserved`, a word with one of the opcodes by its first reason. -/
theorem undefinedOpcodeStops : Obligations.UndefinedOpcodeStops :=
  ⟨fun _ s => ⟨exec_reserved s rfl, exec_reserved s rfl, exec_reserved s rfl, exec_reserved s rfl, exec_reserved s rfl,
      exec_reserved s rfl, exec_reserved s rfl, exec_reserved s rfl⟩,
    fun _ hop => step_of_undefinedReason (undefinedReason_opcode hop)⟩

/-- Settles O14: the reserved bit is the word's first reason, so the step stops for it. -/
theorem reservedBitStops : Obligations.ReservedBitStops := fun _ hop hbit =>
  step_of_undefinedReason (undefinedReason_reservedBit hop (Bool.or_eq_true_iff.mpr hbit))

/-! The condition (R56). -/

/-- The z bit of an instruction that may write its rd only decides whether the effect happens. -/
theorem writing_unconditional {rd : Reg} (z : Bool) (s : State) (effect : Result) (h : rd.writable = true) :
    writing rd z s effect = ifExecuted z s (writing rd false s effect) := by
  have hfl : rd ≠ .fl := (writable_iff rd).mp h
  rw [writing_eq _ _ _ _ hfl, writing_eq _ _ _ _ hfl]
  rfl

/-- The z bit of a defined instruction only decides whether its unconditional form runs. -/
theorem exec_unconditional {i : Instr} (s : State) (hw : i.wellFormed = true) (hr : i.isReserved = false) :
    exec i s = ifExecuted i.cond s (exec i.unconditional s) := by
  cases i with
  | movl | seth | ldr | add | sub | and | orr | mov => exact writing_unconditional _ s _ hw
  | str | nop => rfl
  | undef0010 | undef0011 | undef0110 | undef0111 | undef1100 | undef1101 | undef1110 | undef1111 => cases hr
  | jpr | jpm | jp => exact writing_unconditional (rd := .pc) _ s _ rfl
  | cmp => exact writing_unconditional (rd := .rz) _ s _ rfl
  | jpLabel z target =>
    have near : target.toNat ≤ 0xFF := of_decide_eq_true hw
    simp only [exec, Instr.unconditional, execJpLabel, if_pos near]
    exact writing_unconditional (rd := .pc) z s _ rfl

/-- Settles O34, by the two cases of the condition in front of the unconditional form (`exec_unconditional`). -/
theorem conditionSelectsEffectOrAdvance : Obligations.ConditionSelectsEffectOrAdvance := by
  intro i s hdef
  obtain ⟨hw, hr⟩ := i.defined_iff.mp hdef
  rw [exec_unconditional s hw hr]
  refine ⟨fun hc hz => ?_, ifExecuted_holds _ _ _⟩
  rw [ifExecuted_eq, if_pos ⟨hc, hz⟩]
  rfl

/-- Settles O35, by `exec_completes`. -/
theorem definedInstructionsAlwaysComplete : Obligations.DefinedInstructionsAlwaysComplete := by
  intro i s hdef
  obtain ⟨hw, hr⟩ := i.defined_iff.mp hdef
  exact exec_completes s hw hr

/-! The frame of the general registers (R13). -/

/-- The general registers are where their codes 1 to 4 say, so a write under another code leaves them. -/
theorem readReg_afterWrite_ne {r rd : Reg} (hr : r ∈ [Reg.r1, Reg.r2, Reg.r3, Reg.r4]) (h : rd ≠ r) (s : State)
    (v fl : Word) : readReg (afterWrite s rd.code v fl) r = readReg s r := by
  have hcode : rd.code ≠ r.code := fun e => h (by simpa using congrArg Reg.ofCode e)
  simp only [List.mem_cons, List.not_mem_nil, or_false] at hr
  obtain rfl | rfl | rfl | rfl := hr <;> exact if_neg hcode

theorem readReg_advancePc {r : Reg} (h : r ≠ .pc) (s : State) : readReg (advancePc s) r = readReg s r := by
  cases r with
  | pc => cases h rfl
  | _ => rfl

@[simp] theorem readReg_storeWord (s : State) (a v : Word) (r : Reg) : readReg (storeWord s a v) r = readReg s r := by
  cases r <;> rfl

/-- Settles O37, by the cases of `exec_next`: the advance of the pc and a store leave every general register, and a
register write sets the destination alone. -/
theorem onlyDestinationChanges : Obligations.OnlyDestinationChanges := by
  intro i s t h
  refine ⟨fun r hr unwritten => ?_, rfl⟩
  have hpc : r ≠ .pc := ne_of_mem_of_not_mem hr (by decide)
  obtain ⟨-, -, rfl⟩ | ⟨holds, ⟨rd, v, fl, hd, -, rfl, -, -⟩ | ⟨z, rd, ra, -, rfl⟩⟩ := exec_next h
  · exact readReg_advancePc hpc s
  · have other : i.dest ≠ some r := unwritten.resolve_right (condition_exclusive holds)
    exact readReg_afterWrite_ne hr (fun e => other (e ▸ hd)) s v fl
  · rw [readReg_advancePc hpc, readReg_storeWord]

end Sys2Proof.Machine
end

section
/-!
PROOFS. The I-Mode instructions of spec/40_imode.md: what movl and seth leave in rd, each as an equation of exec, and their
step from the word at the pc.
-/
namespace Sys2Proof.Machine

open Sys2Proof.Safety

/-! The bytes of a word. -/

/-- seth's shift, mask and or (R81) put imm8 above the old low byte. -/
theorem shift_or_mask_eq_append (n : Imm8) (v : Word) :
    (n.setWidth 16 <<< 8) ||| (v &&& 0x00FF#16) = n ++ v.extractLsb' 0 8 := by
  apply BitVec.eq_of_getLsbD_eq
  intro j hj
  simp only [BitVec.getLsbD_or, BitVec.getLsbD_and, BitVec.getLsbD_append]
  interval_cases j <;> simp

/-- A byte above the low byte of a word, as a sum of weights. -/
theorem append_lowByte_eq_ofNat (n : Imm8) (v : Word) :
    n ++ v.extractLsb' 0 8 = BitVec.ofNat 16 (n.toNat * 256 + v.toNat % 256) := by
  apply BitVec.eq_of_toNat_eq
  have low : v.toNat % 2 ^ 8 < 2 ^ 8 := Nat.mod_lt _ (by decide)
  have sum : (n ++ v.extractLsb' 0 8).toNat = n.toNat * 2 ^ 8 + v.toNat % 2 ^ 8 := by
    rw [BitVec.toNat_append, BitVec.extractLsb'_toNat, Nat.shiftRight_zero, ← Nat.shiftLeft_add_eq_or_of_lt low,
      Nat.shiftLeft_eq]
  rw [sum, BitVec.toNat_ofNat]
  omega

/-- A word is its high byte above its low byte, the low byte first widened to a word (R82). -/
theorem highByte_append_lowByte (k : Word) :
    k.extractLsb' 8 8 ++ ((k.extractLsb' 0 8).setWidth 16).extractLsb' 0 8 = k := by
  have bytes : k.extractLsb' 8 8 ++ k.extractLsb' 0 8 = k.extractLsb' 0 16 :=
    BitVec.extractLsb'_append_extractLsb'_eq_extractLsb' rfl
  rw [BitVec.extractLsb'_setWidth_of_le (by decide), BitVec.extractLsb'_eq_self, bytes, BitVec.extractLsb'_eq_self]

/-! The meanings. -/

/-- An instruction outside the ALU that writes rd: it only advances the pc, or rd takes its value and fl stays. -/
theorem writing_writeResult (z : Bool) {rd : Reg} (s : State) (v : Word) (hfl : rd ≠ .fl) :
    writing rd z s (writeResult s rd v) =
      if z = true ∧ s.fl.getLsbD 0 = false then .next (advancePc s) else .next (afterWrite s rd.code v s.fl) := by
  rw [writing_eq _ _ _ _ hfl, ifExecuted_eq, writeResult_next _ _ _ hfl]

/-- R80: movl with a writable rd. -/
theorem exec_movl_eq (z : Bool) (rd : Reg) (n : Imm8) (s : State) (hfl : rd ≠ .fl) :
    exec (.movl z rd n) s =
      if z = true ∧ s.fl.getLsbD 0 = false then .next (advancePc s)
      else .next (afterWrite s rd.code (n.setWidth 16) s.fl) :=
  writing_writeResult z s _ hfl

/-- R81: seth with a writable rd. -/
theorem exec_seth_eq (z : Bool) (rd : Reg) (n : Imm8) (s : State) (hfl : rd ≠ .fl) :
    exec (.seth z rd n) s =
      if z = true ∧ s.fl.getLsbD 0 = false then .next (advancePc s)
      else .next (afterWrite s rd.code (n ++ (x s rd.code).extractLsb' 0 8) s.fl) := by
  rw [← shift_or_mask_eq_append, ← readReg_eq_x]
  exact writing_writeResult z s _ hfl

theorem exec_movl_executed {z : Bool} {rd : Reg} (n : Imm8) {s : State} (hfl : rd ≠ .fl)
    (holds : z = true → s.fl.getLsbD 0 = true) :
    exec (.movl z rd n) s = .next (afterWrite s rd.code (n.setWidth 16) s.fl) := by
  rw [exec_movl_eq z rd n s hfl, if_neg (condition_exclusive holds)]

theorem exec_seth_executed {z : Bool} {rd : Reg} (n : Imm8) {s : State} (hfl : rd ≠ .fl)
    (holds : z = true → s.fl.getLsbD 0 = true) :
    exec (.seth z rd n) s = .next (afterWrite s rd.code (n ++ (x s rd.code).extractLsb' 0 8) s.fl) := by
  rw [exec_seth_eq z rd n s hfl, if_neg (condition_exclusive holds)]

/-! The step from the word. -/

/-- The step of an I-Mode word: R64's two reasons, then the instruction `mk`, whose value for rd is `value` of imm8 and
of what rd held. -/
theorem step_imode {mk : Bool → Reg → Imm8 → Instr} {value : Imm8 → Word → Word} {s : State} {w : Word}
    (hw : loadWord s s.pc = w) (hdec : decode w = decodeImode mk w)
    (hexec : ∀ z rd n, rd ≠ .fl → exec (mk z rd n) s =
      if z = true ∧ s.fl.getLsbD 0 = false then .next (advancePc s)
      else .next (afterWrite s rd.code (value n (x s rd.code)) s.fl)) :
    step s =
      if rdField w = 6#3 then .fault (.undefined .register110)
      else if rdField w = 5#3 then .fault (.undefined .writeFl)
      else if zField w = true ∧ s.fl.getLsbD 0 = false then .next (advancePc s)
      else .next (afterWrite s (rdField w) (value (imm8Field w) (x s (rdField w))) s.fl) := by
  have decoded : decode (loadWord s s.pc) = decodeImode mk w := (congrArg decode hw).trans hdec
  rw [decodeImode_eq] at decoded
  by_cases h110 : rdField w = 6#3
  · rw [if_pos h110] at decoded ⊢
    exact step_of_decode_error decoded
  by_cases hfl : rdField w = 5#3
  · rw [if_neg h110, if_pos hfl] at decoded ⊢
    exact step_of_decode_error decoded
  · have writable : Reg.named (rdField w) ≠ .fl :=
      (writable_iff _).mp (by rw [Reg.writable_named, decide_eq_true hfl])
    rw [if_neg h110, if_neg hfl] at decoded ⊢
    rw [step_of_decode_ok decoded, hexec _ _ _ writable, Reg.code_named h110]

/-- Settles O15: a word of op 0000 decodes as movl, and `step_imode` with the value of R80. -/
theorem movlStep : Obligations.MovlStep := fun s w hw hop =>
  step_imode (value := fun n _ => n.setWidth 16) hw (decode_movl w hop) fun z rd n => exec_movl_eq z rd n s

/-- Settles O16: a word of op 0001 decodes as seth, and `step_imode` with the value of R81. -/
theorem sethStep : Obligations.SethStep := fun s w hw hop =>
  step_imode (value := fun n old => n ++ old.extractLsb' 0 8) hw (decode_seth w hop) fun z rd n => exec_seth_eq z rd n s

/-! Completion and the two-instruction constant. -/

/-- Settles O23: both by their executed form, with the values as numbers. -/
theorem imodeInstructionsComplete : Obligations.ImodeInstructionsComplete := by
  intro z rd n s hfl holds
  rw [exec_movl_executed n hfl holds, exec_seth_executed n hfl holds, append_lowByte_eq_ofNat, BitVec.ofNat_toNat]
  exact ⟨rfl, rfl⟩

/-- Settles O48: movl leaves the low byte of K in rd, where seth reads it, and the two bytes are K
(`highByte_append_lowByte`). -/
theorem twoInstructionsLoadAConstant : Obligations.TwoInstructionsLoadAConstant := by
  intro k rd s hrd
  have hfl : rd ≠ .fl := ne_of_mem_of_not_mem hrd (by decide)
  refine ⟨_, _, exec_movl_executed _ hfl nofun, exec_seth_executed _ hfl nofun, ?_, rfl, rfl⟩
  rw [readReg_afterWrite_same hrd, ← readReg_eq_x, readReg_afterWrite_same hrd, highByte_append_lowByte]

end Sys2Proof.Machine
end

section
/-!
PROOFS. The memory instructions of spec/41_memory_instructions.md: str and ldr as equations of exec, their step from the
word at the pc, their completion, and the register frame of str.
-/
namespace Sys2Proof.Machine

open Sys2Proof.Safety

/-! The meanings. -/

/-- R90: str, its condition met or not. -/
theorem exec_str_eq (z : Bool) (rd ra : Reg) (s : State) :
    exec (.str z rd ra) s =
      if z = true ∧ s.fl.getLsbD 0 = false then .next (advancePc s)
      else .next (advancePc (storeWord s (x s ra.code) (x s rd.code))) := by
  rw [exec, execStr, ifExecuted_eq, readReg_eq_x, readReg_eq_x]

/-- R91: ldr with a writable rd. -/
theorem exec_ldr_eq (z : Bool) {rd : Reg} (ra : Reg) (s : State) (hfl : rd ≠ .fl) :
    exec (.ldr z rd ra) s =
      if z = true ∧ s.fl.getLsbD 0 = false then .next (advancePc s)
      else .next (afterWrite s rd.code (loadWord s (x s ra.code)) s.fl) := by
  rw [← readReg_eq_x]
  exact writing_writeResult z s _ hfl

/-! The step from the word. -/

/-- The step of a word whose decoder begins with the reasons str and ldr share (R61, R63, R14), in R64's order; `rest` is
what the decoder answers after them, and `r` the outcome it leads to. -/
theorem step_loadStore {s : State} {w : Word} {rest : Except UndefinedReason Instr} {r : Result}
    (hw : loadWord s s.pc = w)
    (hdec : decode w =
      if reservedSet w = true then .error .reservedBit
      else if rbField w ≠ 0#3 then .error .ldstLowBits
      else if rdField w = 6#3 ∨ raField w = 6#3 then .error .register110
      else rest)
    (hrest : rdField w ≠ 6#3 → raField w ≠ 6#3 → decode (loadWord s s.pc) = rest → step s = r) :
    step s =
      if w.getLsbD 7 = true ∨ w.getLsbD 3 = true then .fault (.undefined .reservedBit)
      else if rbField w ≠ 0#3 then .fault (.undefined .ldstLowBits)
      else if rdField w = 6#3 ∨ raField w = 6#3 then .fault (.undefined .register110)
      else r := by
  have decoded := (congrArg decode hw).trans hdec
  simp only [reservedSet, Bool.or_eq_true] at decoded
  split_ifs at decoded ⊢ with hbit hlow h110
  · exact step_of_decode_error decoded
  · exact step_of_decode_error decoded
  · exact step_of_decode_error decoded
  · obtain ⟨hd, ha⟩ := not_or.mp h110
    exact hrest hd ha decoded

/-- R90: the step of a str word, in the spec's bits; rd is read, so no reason is left after register 110. -/
theorem step_str {s : State} {w : Word} (hw : loadWord s s.pc = w) (hop : opField w = 0b0100#4) :
    step s =
      if w.getLsbD 7 = true ∨ w.getLsbD 3 = true then .fault (.undefined .reservedBit)
      else if w.extractLsb' 0 3 ≠ 0#3 then .fault (.undefined .ldstLowBits)
      else if w.extractLsb' 8 3 = 6#3 ∨ w.extractLsb' 4 3 = 6#3 then .fault (.undefined .register110)
      else if w.getLsbD 11 = true ∧ s.fl.getLsbD 0 = false then .next (advancePc s)
      else .next (advancePc (storeWord s (x s (w.extractLsb' 4 3)) (x s (w.extractLsb' 8 3)))) := by
  refine step_loadStore hw ((decode_str w hop).trans (decodeStr_eq w)) fun hd ha decoded => ?_
  rw [step_of_decode_ok decoded, exec_str_eq, Reg.code_named hd, Reg.code_named ha]
  rfl

/-- Settles O17, by the clauses of `step_str`; the words of the memory it leaves are those of `loadWord_storeWord`. -/
theorem strStep : Obligations.StrStep := by
  intro s w hwf hw hop
  have outcome := step_str hw hop
  split_ifs at outcome ⊢
  · exact outcome
  · exact outcome
  · exact outcome
  · exact outcome
  · exact ⟨_, outcome, loadWord_storeWord hwf _ _⟩

/-- Settles O18, by `step_loadStore`: after the reasons shared with str, rd = fl stops the step (R18), and any other rd
takes the word that `exec_ldr_eq` says. -/
theorem ldrStep : Obligations.LdrStep := by
  intro s w hw hop
  refine step_loadStore hw ((decode_ldr w hop).trans (decodeLdr_eq w)) fun hd ha decoded => ?_
  by_cases hfl : rdField w = 5#3
  · rw [if_pos hfl] at decoded
    exact (step_of_decode_error decoded).trans (if_pos hfl).symm
  · rw [if_neg hfl] at decoded
    have writable : Reg.named (rdField w) ≠ .fl :=
      (writable_iff _).mp (by rw [Reg.writable_named, decide_eq_true hfl])
    rw [step_of_decode_ok decoded, exec_ldr_eq _ _ _ writable, Reg.code_named hd, Reg.code_named ha]
    exact (if_neg hfl).symm

/-! Completion. -/

/-- Settles O24: an executed str stores x[rd] at x[ra] (`exec_str_executed`), which keeps memory canonical and sets that
word alone. -/
theorem storeCompletes : Obligations.StoreCompletes := fun _ rd ra s hwf holds =>
  ⟨_, exec_str_executed rd ra holds, storeWord_wf s _ _ hwf, loadWord_storeWord_same s _ _ hwf,
    fun a => loadWord_storeWord_ne s _ a _⟩

/-- Settles O25, by `exec_ldr_executed`. -/
theorem loadCompletes : Obligations.LoadCompletes := fun _ _ ra _ => exec_ldr_executed ra

/-! The register frame of str. -/

/-- Settles O40, by the two cases of `exec_str_eq`: each is the advance of the pc, from the state before or after the
store, and a store changes no register. -/
theorem storeChangesNoRegister : Obligations.StoreChangesNoRegister := by
  intro z rd ra s t h
  rw [exec_str_eq] at h
  split_ifs at h
  · obtain rfl := Host.Outcome.next.inj h
    exact ⟨fun r hpc => readReg_advancePc hpc s, advancePc_pc s⟩
  · obtain rfl := Host.Outcome.next.inj h
    refine ⟨fun r hpc => ?_, rfl⟩
    rw [readReg_advancePc hpc, readReg_storeWord]

end Sys2Proof.Machine
end

section
/-!
PROOFS. The ALU instructions of spec/42_alu.md: the four flags of an executed add, sub, and, orr in the spec's range and bit
forms, completion, and the step from the word at the pc.
-/
namespace Sys2Proof.Machine

open Sys2Proof.Safety

/-! Arithmetic of a 16-bit result. -/

/-- The pseudocode's `mod 65536` is the width of a word. -/
theorem ofNat_mod_wordSize (n : Nat) : BitVec.ofNat 16 (n % 65536) = BitVec.ofNat 16 n :=
  BitVec.eq_of_toNat_eq (Nat.mod_mod n 65536)

/-- The pseudocode's result of add (R105). -/
theorem ofNat_add_mod (a b : Word) : BitVec.ofNat 16 ((a.toNat + b.toNat) % 65536) = a + b := by
  rw [ofNat_mod_wordSize, BitVec.add_def]

/-- The pseudocode's result of sub (R106), the second operand complemented to 65536. -/
theorem ofNat_sub_mod (a b : Word) : BitVec.ofNat 16 ((a.toNat + (65536 - b.toNat)) % 65536) = a - b := by
  rw [ofNat_mod_wordSize, Nat.add_comm, BitVec.sub_def]

/-- Bit 15 of a word is its sign. -/
theorem msb_eq_bit15 (r : Word) : r.msb = r.getLsbD 15 := r.msb_eq_getLsbD_last

/-- R103, add: the range form is the bit form, by the library's signed overflow of an addition. -/
theorem signedOverflow_add (a b : Word) : signedOverflow (a.toInt + b.toInt) = addOverflowBits a b (a + b) := by
  have range : signedOverflow (a.toInt + b.toInt) = a.saddOverflow b := by
    rw [signedOverflow, BitVec.saddOverflow, ← Bool.decide_or]
    exact decide_eq_decide.mpr (by omega)
  rw [range, BitVec.saddOverflow_eq]
  simp only [addOverflowBits, msb_eq_bit15]
  cases a.getLsbD 15 <;> simp

/-- R103, sub: the range form is the bit form, by the library's signed overflow of a subtraction. -/
theorem signedOverflow_sub (a b : Word) : signedOverflow (a.toInt - b.toInt) = subOverflowBits a b (a - b) := by
  have range : signedOverflow (a.toInt - b.toInt) = a.ssubOverflow b := by
    rw [signedOverflow, BitVec.ssubOverflow, ← Bool.decide_or]
    exact decide_eq_decide.mpr (by omega)
  rw [range, BitVec.ssubOverflow_eq]
  simp only [subOverflowBits, msb_eq_bit15]
  cases a.getLsbD 15 <;> simp

/-- The sign of the wrapped difference, corrected where the exact difference is out of range, orders the operands
(R106). -/
theorem bit15_sub_ne_overflow_iff (a b : Word) :
    (a - b).getLsbD 15 ≠ signedOverflow (a.toInt - b.toInt) ↔ a.toInt < b.toInt := by
  have ha := a.toInt_lt
  have ha' := a.le_toInt
  have hb := b.toInt_lt
  have hb' := b.le_toInt
  rw [← msb_eq_bit15, BitVec.msb_eq_toInt, BitVec.toInt_sub, signedOverflow, Int.bmod_def, ne_eq, decide_eq_decide]
  omega

/-! The flags of an executed ALU instruction. -/

theorem Flags.toWord_z (f : Flags) : f.toWord.getLsbD 0 = f.z := by
  simp only [Flags.toWord, BitVec.getLsbD_setWidth, BitVec.getLsbD_append]
  simp

theorem Flags.toWord_n (f : Flags) : f.toWord.getLsbD 1 = f.n := by
  simp only [Flags.toWord, BitVec.getLsbD_setWidth, BitVec.getLsbD_append]
  simp

theorem Flags.toWord_c (f : Flags) : f.toWord.getLsbD 2 = f.c := by
  simp only [Flags.toWord, BitVec.getLsbD_setWidth, BitVec.getLsbD_append]
  simp

theorem Flags.toWord_v (f : Flags) : f.toWord.getLsbD 3 = f.v := by
  simp only [Flags.toWord, BitVec.getLsbD_setWidth, BitVec.getLsbD_append]
  simp

/-- Where an executed ALU instruction answers a next state, rd is not fl and fl is the word of the result's flags. -/
theorem fl_of_aluInstr {f : Word → Word → AluOut} {z : Bool} {rd ra rb : Reg} {s t : State}
    (holds : z = true → s.fl.getLsbD 0 = true) (h : aluInstr f z rd ra rb s = .next t) :
    t.fl = (f (x s ra.code) (x s rb.code)).flags.toWord := by
  by_cases hfl : rd = .fl
  · subst hfl
    cases h
  · rw [aluInstr_executed f ra rb hfl holds] at h
    obtain rfl := Host.Outcome.next.inj h
    exact afterWrite_fl ..

section

variable (f : Word → Word → AluOut) {z : Bool} {rd ra rb : Reg} {s t : State}
  (holds : z = true → s.fl.getLsbD 0 = true) (h : aluInstr f z rd ra rb s = .next t)

include holds h

theorem zFlag_of_aluInstr : t.fl.getLsbD 0 = (f (x s ra.code) (x s rb.code)).flags.z := by
  rw [fl_of_aluInstr holds h, Flags.toWord_z]

theorem nFlag_of_aluInstr : t.fl.getLsbD 1 = (f (x s ra.code) (x s rb.code)).flags.n := by
  rw [fl_of_aluInstr holds h, Flags.toWord_n]

theorem cFlag_of_aluInstr : t.fl.getLsbD 2 = (f (x s ra.code) (x s rb.code)).flags.c := by
  rw [fl_of_aluInstr holds h, Flags.toWord_c]

theorem vFlag_of_aluInstr : t.fl.getLsbD 3 = (f (x s ra.code) (x s rb.code)).flags.v := by
  rw [fl_of_aluInstr holds h, Flags.toWord_v]

end

/-- Settles O43: Z and N are those of `aluOut`, which the four ALU functions share (R101). -/
theorem zeroAndNegativeDescribeResult : Obligations.ZeroAndNegativeDescribeResult := fun _ _ _ _ _ _ holds =>
  ⟨fun h => ⟨zFlag_of_aluInstr aluAdd holds h, nFlag_of_aluInstr aluAdd holds h⟩,
    fun h => ⟨zFlag_of_aluInstr aluSub holds h, nFlag_of_aluInstr aluSub holds h⟩,
    fun h => ⟨zFlag_of_aluInstr aluAnd holds h, nFlag_of_aluInstr aluAnd holds h⟩,
    fun h => ⟨zFlag_of_aluInstr aluOrr holds h, nFlag_of_aluInstr aluOrr holds h⟩⟩

/-- Settles O44: C of fl is the C that each ALU function sets (R102). -/
theorem carryIsUnsignedOverflow : Obligations.CarryIsUnsignedOverflow := fun _ _ _ _ _ _ holds =>
  ⟨cFlag_of_aluInstr aluAdd holds, cFlag_of_aluInstr aluSub holds, cFlag_of_aluInstr aluAnd holds,
    cFlag_of_aluInstr aluOrr holds⟩

/-- Settles O45: V of fl is the range form that each ALU function sets, and the range form is the bit form
(`signedOverflow_add`, `signedOverflow_sub`). -/
theorem overflowIsSignedOverflow : Obligations.OverflowIsSignedOverflow := by
  intro z rd ra rb s t holds a b
  refine ⟨fun h => ?_, fun h => ?_, vFlag_of_aluInstr aluAnd holds, vFlag_of_aluInstr aluOrr holds⟩
  · have v : t.fl.getLsbD 3 = signedOverflow (a.toInt + b.toInt) := vFlag_of_aluInstr aluAdd holds h
    exact ⟨v, v.trans (signedOverflow_add a b)⟩
  · have v : t.fl.getLsbD 3 = signedOverflow (a.toInt - b.toInt) := vFlag_of_aluInstr aluSub holds h
    exact ⟨v, v.trans (signedOverflow_sub a b)⟩

/-- Settles O46: N is the sign of the wrapped difference and V whether it wrapped (`bit15_sub_ne_overflow_iff`). -/
theorem subtractOrdersSigned : Obligations.SubtractOrdersSigned := by
  intro z rd ra rb s t holds h
  rw [nFlag_of_aluInstr aluSub holds h, vFlag_of_aluInstr aluSub holds h]
  exact bit15_sub_ne_overflow_iff _ _

/-! Completion. -/

/-- An executed ALU instruction with a writable rd, fl flag by flag. -/
theorem aluInstr_completes (f : Word → Word → AluOut) {z : Bool} {rd : Reg} (ra rb : Reg) {s : State} (hfl : rd ≠ .fl)
    (holds : z = true → s.fl.getLsbD 0 = true) :
    aluInstr f z rd ra rb s =
      (let out := f (x s ra.code) (x s rb.code)
       .next (afterWrite s rd.code out.value (flagWord out.flags.v out.flags.c out.flags.n out.flags.z))) := by
  rw [aluInstr_executed f ra rb hfl holds, Flags.toWord_eq]

/-- Settles O26: each is `aluInstr` of its ALU function, with that function's result and flags. -/
theorem aluInstructionsComplete : Obligations.AluInstructionsComplete := fun _ _ ra rb _ hfl holds =>
  ⟨aluInstr_completes aluAdd ra rb hfl holds, aluInstr_completes aluSub ra rb hfl holds,
    aluInstr_completes aluAnd ra rb hfl holds, aluInstr_completes aluOrr ra rb hfl holds⟩

/-! The step from the word. -/

/-- The step of an ALU word, in the spec's bits: R64's reasons in their order, then the instruction `mk`, whose result
and flags the ALU function `f` gives. -/
theorem step_alu {mk : Bool → Reg → Reg → Reg → Instr} (f : Word → Word → AluOut) {s : State} {w : Word}
    (hw : loadWord s s.pc = w) (hdec : decode w = decodeAlu mk w)
    (hexec : ∀ z rd ra rb, exec (mk z rd ra rb) s = aluInstr f z rd ra rb s) :
    step s =
      (let out := f (x s (raField w)) (x s (rbField w))
       if w.getLsbD 7 = true ∨ w.getLsbD 3 = true then .fault (.undefined .reservedBit)
       else if rdField w = 6#3 ∨ raField w = 6#3 ∨ rbField w = 6#3 then .fault (.undefined .register110)
       else if rdField w = 5#3 then .fault (.undefined .writeFl)
       else if zField w = true ∧ s.fl.getLsbD 0 = false then .next (advancePc s)
       else .next (afterWrite s (rdField w) out.value
         (flagWord out.flags.v out.flags.c out.flags.n out.flags.z))) := by
  have decoded : decode (loadWord s s.pc) = decodeAlu mk w := (congrArg decode hw).trans hdec
  rw [decodeAlu_eq] at decoded
  simp only [reservedSet, Bool.or_eq_true] at decoded
  by_cases hbit : w.getLsbD 7 = true ∨ w.getLsbD 3 = true
  · rw [if_pos hbit] at decoded ⊢
    exact step_of_decode_error decoded
  by_cases h110 : rdField w = 6#3 ∨ raField w = 6#3 ∨ rbField w = 6#3
  · rw [if_neg hbit, if_pos h110] at decoded ⊢
    exact step_of_decode_error decoded
  by_cases hfl : rdField w = 5#3
  · rw [if_neg hbit, if_neg h110, if_pos hfl] at decoded ⊢
    exact step_of_decode_error decoded
  · rw [if_neg hbit, if_neg h110, if_neg hfl] at decoded ⊢
    have writable : Reg.named (rdField w) ≠ .fl :=
      (writable_iff _).mp (by rw [Reg.writable_named, decide_eq_true hfl])
    obtain ⟨hd, hab⟩ := not_or.mp h110
    obtain ⟨ha, hb⟩ := not_or.mp hab
    rw [step_of_decode_ok decoded, hexec, aluInstr_eq f _ _ _ _ _ writable, Reg.code_named hd, Reg.code_named ha,
      Reg.code_named hb, Flags.toWord_eq]

/-- Settles O19, by `step_alu`; the pseudocode's result is the sum of words (`ofNat_add_mod`), and its V the range form
(`signedOverflow_add`). -/
theorem addStep : Obligations.AddStep := by
  intro s w hw hop a b r
  have hr : r = a + b := ofNat_add_mod a b
  rw [hr, ← signedOverflow_add]
  exact step_alu aluAdd hw (decode_add w hop) fun _ _ _ _ => rfl

/-- Settles O20, by `step_alu`; the pseudocode's result is the difference of words (`ofNat_sub_mod`), and its V the
range form (`signedOverflow_sub`). -/
theorem subStep : Obligations.SubStep := by
  intro s w hw hop a b r
  have hr : r = a - b := ofNat_sub_mod a b
  rw [hr, ← signedOverflow_sub]
  exact step_alu aluSub hw (decode_sub w hop) fun _ _ _ _ => rfl

/-- Settles O21: a word of op 1010 decodes as and, and `step_alu` with the bitwise and. -/
theorem andStep : Obligations.AndStep := fun _ w hw hop =>
  step_alu aluAnd hw (decode_and w hop) fun _ _ _ _ => rfl

/-- Settles O22: a word of op 1011 decodes as orr, and `step_alu` with the bitwise or. -/
theorem orrStep : Obligations.OrrStep := fun _ w hw hop =>
  step_alu aluOrr hw (decode_orr w hop) fun _ _ _ _ => rfl

end Sys2Proof.Machine
end

section
/-!
PROOFS. The pseudo-instructions of spec/43_pseudo.md: the encoder's words are the spec's formulas, and each row's meaning
follows from the hardware instruction it is, add, sub, movl or ldr with fixed registers.
-/
namespace Sys2Proof

open Sys2Proof.Safety

/-! The words of R120 to R125. -/

/-- The encoder's concatenation of an I-Mode word is the spec's formula of shifts. -/
theorem encodeI_eq_imodeWord (op : BitVec 4) (z : Bool) (rd : BitVec 3) (n : Imm8) :
    encodeI op z rd n = imodeWord op z rd n := by
  apply BitVec.eq_of_getLsbD_eq
  intro j hj
  simp only [encodeI, imodeWord, BitVec.getLsbD_append, BitVec.getLsbD_or]
  interval_cases j <;> simp

/-- The encoder's concatenation of an R-Mode word is the spec's formula of shifts. -/
theorem encodeR_eq_rmodeWord (op : BitVec 4) (z : Bool) (rd ra rb : BitVec 3) :
    encodeR op z rd ra rb = rmodeWord op z rd ra rb := by
  apply BitVec.eq_of_getLsbD_eq
  intro j hj
  simp only [encodeR, rmodeWord, BitVec.getLsbD_append, BitVec.getLsbD_or]
  interval_cases j <;> simp

/-- Settles O7: the word by the format's formula (`encodeR_eq_rmodeWord`, `encodeI_eq_imodeWord`), and the word of a
well-formed row decodes to its expansion (`decode_encode`). -/
theorem pseudoWordsDecodeToHardware : Obligations.PseudoWordsDecodeToHardware :=
  ⟨fun _ rd _ hfl => ⟨encodeR_eq_rmodeWord .., decode_encode ((Machine.writable_iff rd).mpr hfl)⟩,
    fun _ _ => ⟨encodeR_eq_rmodeWord .., decode_encode rfl⟩,
    fun _ _ _ => ⟨encodeR_eq_rmodeWord .., decode_encode rfl⟩,
    ⟨rfl, decode_encode rfl⟩,
    fun _ _ => ⟨encodeR_eq_rmodeWord .., decode_encode rfl⟩,
    fun _ _ => ⟨encodeI_eq_imodeWord .., decode_encode rfl⟩,
    fun _ _ near => decode_encode (decide_eq_true near)⟩

end Sys2Proof

namespace Sys2Proof.Machine

open Sys2Proof.Safety

/-! The rows that add rz: mov and jpr. -/

/-- The sum of a word and zero is the word, without carry or overflow. -/
theorem aluAdd_zero (a : Word) : aluAdd a 0#16 = aluOut a false false := by
  have inRange : signedOverflow (a.toInt + (0#16).toInt) = false := by
    rw [signedOverflow_add, BitVec.add_zero, addOverflowBits, decide_eq_false_iff_not]
    rintro ⟨-, differs⟩
    exact differs rfl
  have noCarry : decide (65536 ≤ a.toNat + (0#16).toNat) = false := decide_eq_false (Nat.not_le.mpr a.isLt)
  rw [aluAdd, inRange, noCarry, BitVec.add_zero]

/-- An executed add of rz: rd takes the value of ra, and fl is written from it, C and V zero. -/
theorem exec_add_rz_executed {z : Bool} {rd : Reg} (ra : Reg) {s : State} (hfl : rd ≠ .fl)
    (holds : z = true → s.fl.getLsbD 0 = true) :
    exec (.add z rd ra .rz) s = .next (afterWrite s rd.code (x s ra.code)
      (flagWord false false ((x s ra.code).getLsbD 15) (decide (x s ra.code = 0#16)))) := by
  have executed : exec (.add z rd ra .rz) s = _ := aluInstr_executed aluAdd ra .rz hfl holds
  have zero : x s Reg.rz.code = 0#16 := rfl
  rw [executed, zero, aluAdd_zero, Flags.toWord_eq]
  rfl

/-- Settles O27: mov is the add of rz, by `exec_add_rz_executed`. -/
theorem movCompletes : Obligations.MovCompletes := fun _ _ ra _ =>
  ⟨encodeR_eq_rmodeWord .., rfl, exec_add_rz_executed ra⟩

/-- Settles O28: jpr is the add of rz with rd = pc, by `exec_add_rz_executed`; where the condition fails it advances, as
every defined instruction does. -/
theorem jprCompletes : Obligations.JprCompletes := fun z ra s =>
  ⟨encodeR_eq_rmodeWord .., rfl, exec_add_rz_executed (rd := .pc) ra (by decide),
    (conditionSelectsEffectOrAdvance (.jpr z ra) s rfl).1⟩

/-! The comparison. -/

/-- The flags of a difference as a comparison: C is the unsigned order, Z equality. -/
theorem aluSub_flags_toWord (a b : Word) :
    (aluSub a b).flags.toWord =
      flagWord (subOverflowBits a b (a - b)) (a.ult b) ((a - b).getLsbD 15) (decide (a = b)) := by
  have equal : decide (a = b) = decide (a - b = 0#16) := decide_eq_decide.mpr sub_eq_zero.symm
  rw [Flags.toWord_eq, ← signedOverflow_sub, equal]
  rfl

/-- Settles O29: cmp is the sub whose result rz discards (`afterWrite_rz`), with the flags of `aluSub_flags_toWord`. -/
theorem cmpCompletes : Obligations.CmpCompletes := by
  intro z ra rb s
  refine ⟨encodeR_eq_rmodeWord .., rfl, fun holds => ?_⟩
  have executed : exec (.cmp z ra rb) s = _ := aluInstr_executed aluSub (rd := .rz) ra rb (by decide) holds
  rw [executed, aluSub_flags_toWord, afterWrite_rz]

/-! nop. -/

/-- Settles O30: nop writes rz and so only advances the pc (`exec_rz`), and a step at its word runs it. -/
theorem nopCompletes : Obligations.NopCompletes := by
  refine ⟨rfl, decode_encode (i := .nop) rfl, fun s => ?_⟩
  have advances : exec .nop s = .next (advancePc s) := exec_rz (i := .nop) s rfl rfl
  refine ⟨advances, fun hword => ?_⟩
  obtain ⟨-, -, runs⟩ := stepRunsEncodedInstruction .nop s rfl hword
  exact runs.trans advances

/-! The jumps that leave the flags: jpm, jp and the label jump. -/

/-- Settles O31: jpm is the ldr with rd = pc, by `exec_ldr_executed`. -/
theorem jpmCompletes : Obligations.JpmCompletes := fun _ ra _ =>
  ⟨encodeR_eq_rmodeWord .., rfl, exec_ldr_executed (rd := .pc) ra (by decide)⟩

/-- Settles O32: jp is the movl with rd = pc, by `exec_movl_executed`; where the condition fails it advances, as every
defined instruction does. -/
theorem jpCompletes : Obligations.JpCompletes := fun z n s =>
  ⟨encodeI_eq_imodeWord .., rfl, exec_movl_executed (rd := .pc) n (by decide),
    (conditionSelectsEffectOrAdvance (.jp z n) s rfl).1⟩

/-- An address up to 0x00FF is its low byte. -/
theorem setWidth_lowByte_of_near {target : Word} (near : target.toNat ≤ 0xFF) :
    (target.setWidth 8).setWidth 16 = target := by
  apply BitVec.eq_of_toNat_eq
  rw [BitVec.toNat_setWidth, BitVec.toNat_setWidth]
  omega

/-- Settles O33: a label in reach is the jp to its low byte, which is the label (`setWidth_lowByte_of_near`); above that
the meaning is the refusal. -/
theorem labelJumpCompletesInReach : Obligations.LabelJumpCompletesInReach := by
  intro z target s
  have wellFormed (near : target.toNat ≤ 0xFF) : (Instr.jpLabel z target).wellFormed = true := decide_eq_true near
  refine ⟨fun near holds => ?_, fun near => ?_, fun far => if_neg (Nat.not_le.mpr far)⟩
  · rw [← exec_expand s (wellFormed near), Instr.expand, exec_movl_executed _ (by decide) holds,
      setWidth_lowByte_of_near near]
    rfl
  · exact (conditionSelectsEffectOrAdvance _ s ((Instr.defined_iff _).mpr ⟨wellFormed near, rfl⟩)).1

end Sys2Proof.Machine
end

section
/-!
PROOFS. The start and the end of a run (spec/70_reset_and_hazards.md): the start state and its memory, when a run goes
on, and where it has ended. A run is followed one step at a time, by the outcome of its first step.
-/
namespace Sys2Proof.Machine

open Sys2Proof.Safety

/-! Reset. -/

/-- Settles O1: reset is the start with nothing listed, and every register of a start state is zero whatever its memory;
the fetch is the load at its pc. -/
theorem everyRegisterStartsZero : Obligations.EveryRegisterStartsZero := by
  rintro s (rfl | ⟨image, rfl⟩) <;> exact ⟨rfl, rfl, rfl, rfl, rfl, rfl, rfl⟩

/-- The words below any address of the address space can be set at will, by writing them in turn. -/
theorem Memory.exists_wf_reading (f : Nat → Word) (n : Nat) (hn : n ≤ Config.memWords) :
    ∃ m : Memory, m.wf ∧ ∀ a < n, Memory.read m a = f a := by
  induction n with
  | zero => exact ⟨[], Memory.wf_nil, nofun⟩
  | succ n ih =>
    obtain ⟨m, hwf, hread⟩ := ih (Nat.le_of_succ_le hn)
    refine ⟨Memory.write m n (f n), Memory.write_wf m n (f n) hn hwf, fun a ha => ?_⟩
    obtain below | rfl := Nat.lt_succ_iff_lt_or_eq.mp ha
    · rw [Memory.read_write_ne m n a (f n) (Nat.ne_of_lt below), hread a below]
    · exact Memory.read_write_same m a (f a) hwf

/-- Settles O2: writing the whole address space (`Memory.exists_wf_reading`) makes a canonical memory that reads as
memInit. -/
theorem everyInitialImageHasAStart : Obligations.EveryInitialImageHasAStart := by
  refine ⟨fun memInit => ?_, rfl⟩
  obtain ⟨image, hwf, hread⟩ :=
    Memory.exists_wf_reading (fun a => memInit (BitVec.ofNat 16 a)) Config.memWords le_rfl
  refine ⟨image, hwf, fun a => ?_⟩
  rw [loadWord, start_mem, hread a.toNat a.isLt, BitVec.ofNat_toNat, BitVec.setWidth_eq]

/-! When a run goes on. -/

/-- A run goes through, past states without a reason of R64, or it stops at a state it passed through, for that state's
first reason. -/
theorem run_outcome (k : Nat) (s : State) :
    (RunsSafely k s ∧ ∀ j < k, ∃ t, run j s = .next t ∧ undefinedReason (loadWord t t.pc) = none) ∨
    ∃ r, run k s = .fault (.undefined r) ∧
      ∃ j < k, ∃ t, run j s = .next t ∧ undefinedReason (loadWord t t.pc) = some r := by
  induction k generalizing s with
  | zero => exact .inl ⟨⟨s, run_zero s⟩, nofun⟩
  | succ k ih =>
    obtain ⟨noReason, u, next⟩ | ⟨r, reason, fault⟩ := step_outcome s
    · obtain ⟨⟨t, ht⟩, passed⟩ | ⟨r, hr, j, hj, t, ht, reason⟩ := ih u
      · refine .inl ⟨⟨t, (run_next k next).trans ht⟩, fun j hj => ?_⟩
        cases j with
        | zero => exact ⟨s, run_zero s, noReason⟩
        | succ j =>
          rw [run_next j next]
          exact passed j (Nat.lt_of_succ_lt_succ hj)
      · exact .inr ⟨r, (run_next k next).trans hr, j + 1, Nat.succ_lt_succ hj, t, (run_next j next).trans ht, reason⟩
    · exact .inr ⟨r, run_fault k fault, 0, Nat.succ_pos k, s, run_zero s, reason⟩

/-- Settles O54, by the two outcomes of a run (`run_outcome`); Defined is the absence of a reason (`definedWord_iff`). -/
theorem runIsSafeIffEveryFetchedWordIsDefined : Obligations.RunIsSafeIffEveryFetchedWordIsDefined := by
  intro k s
  simp only [definedWord_iff]
  obtain ⟨⟨t, next⟩, passed⟩ | ⟨r, fault, stopped⟩ := run_outcome k s
  · rw [next]
    exact ⟨iff_of_true ⟨t, next⟩ passed, nofun, nofun⟩
  · have stops : ¬ RunsSafely k s := fun ⟨t, next⟩ => by cases fault.symm.trans next
    have meetsUndefined : ¬ ∀ j < k, ∃ t, run j s = .next t ∧ undefinedReason (loadWord t t.pc) = none := by
      intro passed
      obtain ⟨j, hj, t, ht, reason⟩ := stopped
      obtain ⟨u, hu, noReason⟩ := passed j hj
      cases ht.symm.trans hu
      cases reason.symm.trans noReason
    rw [fault]
    refine ⟨iff_of_false stops meetsUndefined, nofun, fun r' hr' => ?_⟩
    cases hr'
    exact stopped

/-! The end of a run. -/

/-- Every later step leaves an ended run where it is. -/
theorem run_of_ended {s : State} (h : Ended s) (k : Nat) : run k s = .next s := by
  induction k with
  | zero => exact run_zero s
  | succ k ih => rw [run_next k h, ih]

/-- An instruction that leaves the pc as it is executes and has rd = pc, since any other goes one on. -/
theorem writes_pc_of_exec_self {i : Instr} {s : State} (h : exec i s = .next s) :
    (i.cond = true → s.fl.getLsbD 0 = true) ∧ i.dest = some .pc := by
  have written : ¬ (i.dest ≠ some .pc ∨ (i.cond = true ∧ s.fl.getLsbD 0 = false)) := by
    intro unwritten
    have advanced := pcAdvancesUnlessWritten i s s h unwritten
    omega
  simpa [and_comm] using written

/-- A decoded instruction that goes on is defined, as a reserved row stops. -/
theorem defined_of_exec_next {w : Word} {i : Instr} {s t : State} (hd : decode w = .ok i) (h : exec i s = .next t) :
    i.defined = true := by
  refine i.defined_iff.mpr ⟨wellFormed_of_decode hd, Bool.eq_false_iff.mpr fun reserved => ?_⟩
  cases (exec_reserved s reserved).symm.trans h

/-- Settles O55: a step back to the same state is a decoded instruction (`step_next`) that did not advance the pc
(`writes_pc_of_exec_self`). -/
theorem endedIsAnExecutedSelfJump : Obligations.EndedIsAnExecutedSelfJump := by
  intro s
  constructor
  · intro ended
    obtain ⟨i, hd, self⟩ := step_next ended
    obtain ⟨holds, dest⟩ := writes_pc_of_exec_self self
    exact ⟨i, hd, defined_of_exec_next hd self, holds, dest, self, run_of_ended ended⟩
  · rintro ⟨i, hd, -, -, -, self, -⟩
    exact (step_of_decode_ok hd).trans self

/-- R121 at `jpr pc`: the step stays at the pc and sets the flags from it. -/
theorem step_jpr_pc {s : State} (h : loadWord s s.pc = 0x8770#16) :
    step s = .next { s with fl := flagWord false false (s.pc.getLsbD 15) (decide (s.pc = 0#16)) } := by
  obtain ⟨-, -, runs⟩ := stepRunsEncodedInstruction (.jpr false .pc) s rfl h
  obtain ⟨-, -, executed, -⟩ := jprCompletes false .pc s
  exact runs.trans (executed nofun)

/-- Settles O56: `jp n` at n sets the pc to what it is (`jpCompletes`); `jpr pc` keeps the pc and the memory, so its
second step sets the same flags again (`step_jpr_pc`). -/
theorem selfJumpsEndARun : Obligations.SelfJumpsEndARun := by
  refine ⟨fun s n hpc hword => ?_, fun s hword => ?_⟩
  · obtain ⟨encodes, -, executed, -⟩ := jpCompletes false n s
    obtain ⟨-, -, runs⟩ := stepRunsEncodedInstruction (.jp false n) s rfl (hword.trans encodes.symm)
    rw [Ended, runs, executed nofun, ← hpc]
  · exact ⟨_, step_jpr_pc hword, rfl, step_jpr_pc (s := { s with fl := _ }) hword⟩

end Sys2Proof.Machine
end
